-- ==== Sys2Proof/Word.lean ====
section
/-! DEFINITION. The 48-bit word of R8 and R50, the characters of the text, and the closed lists of names that
the rules use: the fields and causes of R181, the word kinds of R58, the field descriptors of R63 and R116, the
frame mode of R16. -/

namespace Sys2Proof

/-- A 48-bit word (R8, R50): bit 47 is the most significant. -/
abbrev Word := BitVec 48

/-- Text handed to the sink (R43), as a list of characters. -/
abbrev Text := List Char

/-- The field names of R181, in the order of their codes 0 to 18, and any other name that a layout of R116 gives one
of its fields (DEDUCED, log 31). -/
inductive FieldName where
  | none
  | address
  | addressArbiter
  | addressPileup
  | leadingCoarseTime
  | leadingFineTime
  | trailingCoarseTime
  | trailingFineTime
  | qchipCollisionCount
  | hitCounter
  | frameCounter
  | dataSelector
  | leadingCoarseTimeSelector
  | trailingCoarseTimeSelector
  | frameSelector
  | gap
  | width
  | numChunks
  | numDataWords
  | other (name : String)
  deriving DecidableEq, Repr

/-- The causes of R181, codes 1 to 5. Code 0, no fault, is the absence of a cause. -/
inductive Cause where
  | rangeViolation
  | renderOverflow
  | sinkFailure
  | configInvalid
  | malformedWord
  deriving DecidableEq, Repr

/-- What a fault of the hardware carries (R181, R191): the cause and the offending field. -/
structure FaultInfo where
  cause : Cause
  field : FieldName
  deriving DecidableEq, Repr

/-- The word kinds of R58 and R124. -/
inductive Kind where
  | frame
  | data
  | none
  deriving DecidableEq, Repr

/-- FRAME_MODE of R16. -/
inductive FrameMode where
  | fixed
  | general
  deriving DecidableEq, Repr

/-- `kind` of a field descriptor (R63): a forced constant, or an operand with its legal values. -/
inductive FieldKind where
  | const (v : Nat)
  | input (lo hi : Nat)
  deriving DecidableEq, Repr

/-- `cond` of a field descriptor (R116): none, the two that the layouts of R116 use, or any other predicate, given by
the values of the field's range that satisfy it. The range is finite, so every predicate on it is such a list. -/
inductive FieldCond where
  | always
  | oneBit
  | atMostOneBit
  | oneOf (accepted : List Nat)
  deriving DecidableEq, Repr

/-- A field descriptor of R116. -/
structure Field where
  name   : FieldName
  offset : Nat
  width  : Nat
  kind   : FieldKind
  cond   : FieldCond
  deriving DecidableEq, Repr

/-- A layout of R116: field descriptors, top of the word first (DEDUCED, log 30). -/
abbrev Layout := List Field

/-- The values PACK takes and UNPACK gives (R117, R118), by field name. -/
abbrev FieldValues := List (FieldName × Nat)

end Sys2Proof
end

