-- ==== Sys2Proof/Syntax.lean ====
section
/-! DEFINITION. The operations of R7 and opcode_table.json as one inductive type, a constructor per row, over the
abstract operand domain of R11 (unbounded naturals). -/

namespace Sys2Proof

/-- The operand tuple of ENC.DATA (R80) as DEC.DATA returns it (R89): pileup is absent or a position. -/
structure DataTuple where
  address     : Nat
  arbPos      : Nat
  pileup      : Option Nat
  leadCoarse  : Nat
  leadFine    : Nat
  trailCoarse : Nat
  trailFine   : Nat
  deriving DecidableEq, Repr, Inhabited

/-- The operands of ENC.DATA as its ports present them (R11): pileup as `pu_valid` and `pu_pos`. -/
structure DataPorts where
  address     : Nat
  arbPos      : Nat
  puValid     : Bool
  puPos       : Nat
  leadCoarse  : Nat
  leadFine    : Nat
  trailCoarse : Nat
  trailFine   : Nat
  deriving DecidableEq, Repr, Inhabited

/-- The operand triple of ENC.FRAME (R100). -/
structure FrameTriple where
  qchipCc  : Nat
  hitCnt   : Nat
  frameCnt : Nat
  deriving DecidableEq, Repr, Inhabited

/-- All operand ports of ENC together (R11), as MUX.SEL reads them. -/
structure Ports where
  data  : DataPorts
  frame : FrameTriple
  deriving DecidableEq, Repr, Inhabited

/-- One constructor per row of opcode_table.json. -/
inductive Instr where
  /-- ENC.DATA, R80. -/
  | encData (p : DataPorts)
  /-- ENC.FRAME, R100. -/
  | encFrame (t : FrameTriple)
  /-- ENC.FRAMEK, R103. -/
  | encFramek
  /-- DEC.FRAME, R107. -/
  | decFrame (v : Nat)
  /-- DEC.DATA, R89. -/
  | decData (v : Nat)
  /-- FRAME_SENTINEL, R61: the literal word, presented to the decoder. -/
  | frameSentinel
  /-- MUX.SEL, R122: `op_sel_frame`, `op_frame_fixed` and every operand port. -/
  | muxSel (selFrame frameFixed : Bool) (p : Ports)
  /-- PACK, R117. -/
  | pack (l : Layout) (vals : FieldValues)
  /-- UNPACK, R118. -/
  | unpack (l : Layout) (w : Word)
  /-- CLASSIFY, R124. -/
  | classify (w : Word)
  /-- RENDER.HEX, R135. -/
  | renderHex (v : Nat)
  /-- SAMPLE, R145. -/
  | sample
  /-- GEN.CHUNK, R160. -/
  | genChunk (n : Nat)
  /-- GEN.OUTPUT, R162: number of chunks, then number of data words. -/
  | genOutput (c n : Nat)
  deriving DecidableEq, Repr

end Sys2Proof
end

