-- ==== Sys2Proof/Config.lean ====
section
/-! DEFINITION. The fixed parameters of R6, the defaults of R16, and the free values: constants with no body, one
for each thing the spec leaves open, applied to a counter of the state so that each use is a fresh value. -/

namespace Sys2Proof.Config

/-- FRAME_SENTINEL of R6 and R103. -/
def frameSentinel : Nat := 0xe8005000eb00

/-- PILEUP_MODULUS of R6 and R149: the trigger is drawn from 0 .. 332. -/
def pileupModulus : Nat := 333

/-- The default N of R16. -/
def defaultNumDataWords : Nat := 254

/-- The default LINE_BREAK of R6 (D13): LF. -/
def defaultLineBreak : Text := ['\n']

/-- What the `word` port carries when no word was produced (R12, U3). Free: log 6. -/
opaque freeWord : Nat → Word

/-- An answer of the random source that no script gives (R146, U10), before it is brought into the interval of
its draw. Free: log 9. -/
opaque drawAnswer : Nat → Nat

/-- Whether the sink accepts a write that no script answers (R186). Free: log 10. -/
opaque sinkAnswer : Nat → Bool

/-- What the sink holds after a failure (U5). Free: log 11. -/
opaque sinkAfterFailure : Nat → Text

/-- A frame operand triple of GENERAL mode that the host's list does not hold (R163, D23). Free: log 14. -/
opaque frameOperands : Nat → FrameTriple

/-- The number on `fault_field` for a layout's field that R181 gives no number, before it is brought into 0 .. 18,
the numbers R181 uses. Free: log 31. -/
opaque fieldNumber : String → Nat

end Sys2Proof.Config
end

