-- ==== Sys2Proof/Machine/Operands.lean ====
section
/-! DEFINITION. Bits and slices (R8, R9), one-hot masks (R56, R57), the range checks of R81, R101 and R117, and
the field-descriptor tables DATA_LAYOUT and FRAME_LAYOUT (R63, R116). -/

namespace Sys2Proof.Machine

/-- `v[hi:lo]` of R8. -/
def slice (v hi lo : Nat) : Nat := v / 2 ^ lo % 2 ^ (hi - lo + 1)

/-- `onehot(p)` of R9. -/
def onehot (p : Nat) : Nat := 1 <<< p

/-- The set bits among the low `k` bits of `m`. -/
def popcountLow : Nat → Nat → Nat
  | 0, _ => 0
  | k + 1, m => m % 2 + popcountLow k (m / 2)

/-- `popcount(m)` of R9, for a mask below `2^48`. -/
def popcount (m : Nat) : Nat := popcountLow 48 m

/-- `log2(m)` of R9, for a 5-bit mask with exactly one bit set. -/
def maskPos (m : Nat) : Nat :=
  if m = 1 then 0 else if m = 2 then 1 else if m = 4 then 2 else if m = 8 then 3 else 4

/-- `raise RangeViolation(field)` of R180. -/
def rangeViolation (f : FieldName) : FaultInfo := ⟨.rangeViolation, f⟩

/-- `raise MalformedWord(field)` of R188. -/
def malformedWord (f : FieldName) : FaultInfo := ⟨.malformedWord, f⟩

/-- The ports of ENC.DATA as its operand tuple: `pu_pos` is ignored when `pu_valid` is 0 (R57, D14). -/
def tupleOfPorts (p : DataPorts) : DataTuple :=
  { address := p.address, arbPos := p.arbPos
    pileup := if p.puValid then some p.puPos else none
    leadCoarse := p.leadCoarse, leadFine := p.leadFine
    trailCoarse := p.trailCoarse, trailFine := p.trailFine }

/-- The pileup operand is absent or a position 0..4 (R81, R57). -/
def pileupLegal : Option Nat → Bool
  | none => true
  | some p => p ≤ 4

/-- The pileup mask of R57: 0 when absent, else one-hot. -/
def pileupMask : Option Nat → Nat
  | none => 0
  | some p => onehot p

/-- The checks of R81, in the order of the field table: the first field out of range, if any. -/
def dataRangeFault (t : DataTuple) : Option FieldName :=
  if t.address > 89 then some .address
  else if t.arbPos > 4 then some .addressArbiter
  else if !pileupLegal t.pileup then some .addressPileup
  else if t.leadCoarse > 4095 then some .leadingCoarseTime
  else if t.leadFine > 31 then some .leadingFineTime
  else if t.trailCoarse > 63 then some .trailingCoarseTime
  else if t.trailFine > 31 then some .trailingFineTime
  else none

/-- The checks of R101. -/
def frameRangeFault (t : FrameTriple) : Option FieldName :=
  if t.qchipCc > 63 then some .qchipCollisionCount
  else if t.hitCnt > 511 then some .hitCounter
  else if t.frameCnt > 268435455 then some .frameCounter
  else none

/-- The extra predicate of a field descriptor (R116). -/
def condHolds (c : FieldCond) (v : Nat) : Bool :=
  match c with
  | .always => true
  | .oneBit => popcount v == 1
  | .atMostOneBit => decide (popcount v ≤ 1)
  | .oneOf accepted => accepted.contains v

/-- DATA_LAYOUT of R116 (the ten rows of R51). -/
def dataLayout : Layout :=
  [ ⟨.dataSelector, 47, 1, .const 1, .always⟩,
    ⟨.address, 40, 7, .input 0 89, .always⟩,
    ⟨.addressArbiter, 35, 5, .input 1 16, .oneBit⟩,
    ⟨.addressPileup, 30, 5, .input 0 16, .atMostOneBit⟩,
    ⟨.leadingCoarseTimeSelector, 29, 1, .const 0, .always⟩,
    ⟨.leadingCoarseTime, 17, 12, .input 0 4095, .always⟩,
    ⟨.leadingFineTime, 12, 5, .input 0 31, .always⟩,
    ⟨.trailingCoarseTimeSelector, 11, 1, .const 0, .always⟩,
    ⟨.trailingCoarseTime, 5, 6, .input 0 63, .always⟩,
    ⟨.trailingFineTime, 0, 5, .input 0 31, .always⟩ ]

/-- FRAME_LAYOUT of R116 (the five rows of R52). -/
def frameLayout : Layout :=
  [ ⟨.frameSelector, 45, 3, .const 7, .always⟩,
    ⟨.gap, 43, 2, .const 0, .always⟩,
    ⟨.qchipCollisionCount, 37, 6, .input 0 63, .always⟩,
    ⟨.hitCounter, 28, 9, .input 0 511, .always⟩,
    ⟨.frameCounter, 0, 28, .input 0 268435455, .always⟩ ]

/-- Word bit `i` lies in the lane of field `f` (R116). -/
def laneCovers (i : Nat) (f : Field) : Bool :=
  decide (f.offset ≤ i) && decide (i < f.offset + f.width)

/-- The constraint R116 puts on one field of a proper layout. -/
def fieldProper (f : Field) : Bool :=
  decide (1 ≤ f.width) && decide (f.offset + f.width ≤ 48) &&
  match f.kind with
  | .const v => decide (v < 2 ^ f.width)
  | .input lo hi => decide (lo ≤ hi) && decide (hi < 2 ^ f.width)

/-- A proper layout (R116): each field is sound, and each of the bits 0..47 lies in exactly one lane, which is
to say that the lanes are disjoint and their union is the whole word. -/
def properLayout (l : Layout) : Bool :=
  l.all fieldProper && (List.range 48).all fun i => (l.filter (laneCovers i)).length == 1

/-- `v[name]` of R117, if the operand holds a value under that name. -/
def valueOf (vals : FieldValues) (n : FieldName) : Option Nat :=
  match vals with
  | [] => none
  | (m, v) :: rest => if m = n then some v else valueOf rest n

/-- The operand of PACK holds a value for the field if it is an input field (R117). -/
def hasValue (vals : FieldValues) (f : Field) : Bool :=
  match f.kind with
  | .const _ => true
  | .input _ _ => (valueOf vals f.name).isSome

/-- What PACK places on the field's lane (R117): the constant, or the operand. -/
def fieldValue (vals : FieldValues) (f : Field) : Nat :=
  match f.kind with
  | .const v => v
  | .input _ _ => (valueOf vals f.name).getD 0

/-- PACK's check of one field (R117). -/
def fieldLegal (vals : FieldValues) (f : Field) : Bool :=
  match f.kind with
  | .const _ => true
  | .input lo hi =>
    decide (lo ≤ fieldValue vals f) && decide (fieldValue vals f ≤ hi) && condHolds f.cond (fieldValue vals f)

/-- The first field, in table order, that PACK's checks reject (R117). -/
def packRangeFault (l : Layout) (vals : FieldValues) : Option FieldName :=
  match l with
  | [] => none
  | f :: rest => if fieldLegal vals f then packRangeFault rest vals else some f.name

end Sys2Proof.Machine
end

