-- ==== Sys2Proof/WellFormed.lean ====
section
/-! DEFINITION. Which operations the reference interface can present: operands inside the port widths of R11, a
word to decode inside its 48 bits (R50), a proper layout with a value for each of its input fields (R116, R117).
An operation outside this can still be presented by name over the abstract operand domain (R11). -/

namespace Sys2Proof

/-- The operands fit the ports of ENC.DATA (R11). -/
def DataPorts.fit (p : DataPorts) : Bool :=
  decide (p.address < 2 ^ 7) && decide (p.arbPos < 2 ^ 3) && decide (p.puPos < 2 ^ 3) &&
  decide (p.leadCoarse < 2 ^ 12) && decide (p.leadFine < 2 ^ 5) &&
  decide (p.trailCoarse < 2 ^ 6) && decide (p.trailFine < 2 ^ 5)

/-- The operands fit the ports of ENC.FRAME (R11). -/
def FrameTriple.fit (t : FrameTriple) : Bool :=
  decide (t.qchipCc < 2 ^ 6) && decide (t.hitCnt < 2 ^ 9) && decide (t.frameCnt < 2 ^ 28)

/-- The operand of PACK: a proper layout and a value for each input field (R117). -/
def packWellFormed (l : Layout) (vals : FieldValues) : Bool :=
  Machine.properLayout l && l.all (Machine.hasValue vals)

/-- The operation can be presented on the reference interface. -/
def WellFormed : Instr → Bool
  | .encData p => p.fit
  | .encFrame t => t.fit
  | .encFramek => true
  | .decFrame v => decide (v < 2 ^ 48)
  | .decData v => decide (v < 2 ^ 48)
  | .frameSentinel => true
  | .muxSel _ _ p => p.data.fit && p.frame.fit
  | .pack l vals => packWellFormed l vals
  | .unpack l _ => Machine.properLayout l
  | .classify _ => true
  | .renderHex _ => true
  | .sample => true
  | .genChunk _ => true
  | .genOutput _ _ => true

end Sys2Proof
end

