-- ==== Sys2Proof/Decode.lean ====
section
/-! DEFINITION. From what stands on the block's inputs to an operation, and back (R62, R58, opcode_table.json).
Three operations are chosen by the two select inputs with their operands on the reference ports of R11; a bare
48-bit word is keyed by its format, in the table's order of priority; the other operations have no bit pattern
(R62) and are presented by name, as is any operation over the abstract operand domain of R11 (DEDUCED, log 2). -/

namespace Sys2Proof

/-- The operand ports with the widths of R11. -/
structure PortBits where
  address     : BitVec 7
  arbPos      : BitVec 3
  puValid     : BitVec 1
  puPos       : BitVec 3
  leadCoarse  : BitVec 12
  leadFine    : BitVec 5
  trailCoarse : BitVec 6
  trailFine   : BitVec 5
  qchipCc     : BitVec 6
  hitCnt      : BitVec 9
  frameCnt    : BitVec 28
  deriving DecidableEq, Repr

/-- What is presented to the hardware in one transaction (R5, R62). -/
inductive Presented where
  /-- The select inputs `op = op_sel_frame, op_frame_fixed` and the operand ports (R11, R62). -/
  | select (op : BitVec 2) (ports : PortBits)
  /-- A 48-bit word at the companion decoder, keyed by its format (opcode_table.json). -/
  | word (w : Word)
  /-- A direct call by name (R62, R217): a procedure, or operands wider than the ports. -/
  | call (i : Instr)
  /-- `nbits` bits that are neither the two select inputs nor a 48-bit word. -/
  | other (nbits w : Nat)
  deriving DecidableEq, Repr

/-- Why a presentation is no encoding of an operation. -/
inductive DecodeError where
  /-- A word of kind NONE (R60 row 1). -/
  | wordOfNoKind
  /-- Bits of no format of this hardware (R50, R62). -/
  | noSuchFormat
  deriving DecidableEq, Repr

/-- CLASSIFY's test (R58, R124), on bits 47..45 alone. -/
def kindOfWord (w : Word) : Kind :=
  if Machine.slice w.toNat 47 45 = 7 then .frame
  else if Machine.slice w.toNat 47 47 = 1 then .data
  else .none

/-- The data ports as operands. -/
def PortBits.data (p : PortBits) : DataPorts :=
  { address := p.address.toNat, arbPos := p.arbPos.toNat
    puValid := p.puValid == 1#1, puPos := p.puPos.toNat
    leadCoarse := p.leadCoarse.toNat, leadFine := p.leadFine.toNat
    trailCoarse := p.trailCoarse.toNat, trailFine := p.trailFine.toNat }

/-- The counter ports as operands. -/
def PortBits.frame (p : PortBits) : FrameTriple :=
  { qchipCc := p.qchipCc.toNat, hitCnt := p.hitCnt.toNat, frameCnt := p.frameCnt.toNat }

/-- Operands put on the ports. -/
def portBits (d : DataPorts) (f : FrameTriple) : PortBits :=
  { address := BitVec.ofNat 7 d.address, arbPos := BitVec.ofNat 3 d.arbPos
    puValid := if d.puValid then 1#1 else 0#1, puPos := BitVec.ofNat 3 d.puPos
    leadCoarse := BitVec.ofNat 12 d.leadCoarse, leadFine := BitVec.ofNat 5 d.leadFine
    trailCoarse := BitVec.ofNat 6 d.trailCoarse, trailFine := BitVec.ofNat 5 d.trailFine
    qchipCc := BitVec.ofNat 6 f.qchipCc, hitCnt := BitVec.ofNat 9 f.hitCnt
    frameCnt := BitVec.ofNat 28 f.frameCnt }

/-- Every data port at 0. -/
def zeroDataPorts : DataPorts := ⟨0, 0, false, 0, 0, 0, 0, 0⟩

/-- Every counter port at 0. -/
def zeroFrameTriple : FrameTriple := ⟨0, 0, 0⟩

/-- The operation select (R62): bit 1 is `op_sel_frame`, bit 0 is `op_frame_fixed`. -/
def decodeSelect (op : BitVec 2) (p : PortBits) : Instr :=
  if op.getLsbD 1 = false then .encData p.data
  else if op.getLsbD 0 = false then .encFrame p.frame
  else .encFramek

/-- A bare 48-bit word: the sentinel, then a frame word, then a data word (opcode_table.json's priorities, R58,
R61); a word of kind NONE has no meaning (R60 row 1). DEDUCED, log 3. -/
def decodeWord (w : Word) : Except DecodeError Instr :=
  if w.toNat = Config.frameSentinel then .ok .frameSentinel
  else match kindOfWord w with
    | .frame => .ok (.decFrame w.toNat)
    | .data => .ok (.decData w.toNat)
    | .none => .error .wordOfNoKind

/-- The decoder: total on whatever is presented. -/
def decode : Presented → Except DecodeError Instr
  | .select op p => .ok (decodeSelect op p)
  | .word w => decodeWord w
  | .call i => .ok i
  | .other _ _ => .error .noSuchFormat

/-- A value to decode as a bare word, when its format keys the operation that is meant; else by name. -/
def encodeWordOr (v : Nat) (k : Kind) (i : Instr) : Presented :=
  if v < 2 ^ 48 ∧ v ≠ Config.frameSentinel ∧ kindOfWord (BitVec.ofNat 48 v) = k then .word (BitVec.ofNat 48 v)
  else .call i

/-- The encoder: the select inputs and ports (R62), the word itself (R107, R89, R61), or the operation by name. -/
def encode : Instr → Presented
  | .encData p => if p.fit then .select 0b00#2 (portBits p zeroFrameTriple) else .call (.encData p)
  | .encFrame t => if t.fit then .select 0b10#2 (portBits zeroDataPorts t) else .call (.encFrame t)
  | .encFramek => .select 0b11#2 (portBits zeroDataPorts zeroFrameTriple)
  | .decFrame v => encodeWordOr v .frame (.decFrame v)
  | .decData v => encodeWordOr v .data (.decData v)
  | .frameSentinel => .word (BitVec.ofNat 48 Config.frameSentinel)
  | .muxSel a b p => .call (.muxSel a b p)
  | .pack l vals => .call (.pack l vals)
  | .unpack l w => .call (.unpack l w)
  | .classify w => .call (.classify w)
  | .renderHex v => .call (.renderHex v)
  | .sample => .call .sample
  | .genChunk n => .call (.genChunk n)
  | .genOutput c n => .call (.genOutput c n)

/-- The bits of an opcode-table row as a presentation: at most one byte holds the two select inputs, the operand
ports being 0; 48 bits hold a word. -/
def tablePresented (nbits w : Nat) : Presented :=
  if nbits = 48 ∧ w < 2 ^ 48 then .word (BitVec.ofNat 48 w)
  else if nbits ≤ 8 ∧ w < 4 then .select (BitVec.ofNat 2 w) (portBits zeroDataPorts zeroFrameTriple)
  else .other nbits w

/-- The operation the decoder reads from an opcode-table row's bits. -/
def decodeTableWord (nbits w : Nat) : Option Instr :=
  match decode (tablePresented nbits w) with
  | .ok i => some i
  | .error _ => none

end Sys2Proof
end

