-- ==== Sys2Proof/Machine/State.lean ====
section
/-! DEFINITION. The state of the hardware and of its environment (10_state.md), as plain data, and the state after
reset (R23). -/

namespace Sys2Proof.Machine

/-- The sequencer's phase (R14). -/
inductive Phase where
  | idle
  | run
  | done
  | faulted
  deriving DecidableEq, Repr

/-- Which operation raised a recorded fault (R15): one that SEQ performs, or a step of SEQ itself (DESIGN CHOICE,
log 17). -/
inductive OpName where
  | encData
  | encFrame
  | renderHex
  | start
  | dataStep
  | frameStep
  | genChunk
  | genOutput
  deriving DecidableEq, Repr

/-- The fault record FR when it is not `none` (R15). -/
structure FaultRecord where
  cause : Cause
  field : FieldName
  op    : OpName
  deriving DecidableEq, Repr

/-- The output stream OUT (R18, R31): closed chunks in emission order, and the words of the open chunk. An open
chunk of no words and no open chunk are the same thing (R23: OUT is empty). -/
structure OutStream where
  closed    : List (List Word)
  openChunk : List Word
  deriving DecidableEq, Repr

/-- The configuration of a run (R16, R163, R43). -/
structure RunConfig where
  n         : Nat
  c         : Nat
  mode      : FrameMode
  frames    : List FrameTriple
  lineBreak : Text
  deriving DecidableEq, Repr

/-- The random source (R19): scripted answers still to come, and how many draws were made. -/
structure Source where
  script : List Nat
  draws  : Nat
  deriving DecidableEq, Repr

/-- The sink (R43, R169, R186): the text it has accepted, its scripted answers still to come (true accepts a
write), and how many writes it was asked for. -/
structure Sink where
  text    : Text
  answers : List Bool
  writes  : Nat
  deriving DecidableEq, Repr

/-- What an operation gives its caller (R10, R191). -/
inductive Result where
  /-- No operation has been performed since reset. -/
  | none
  /-- A 48-bit word: ENC.DATA, ENC.FRAME, ENC.FRAMEK, MUX.SEL, PACK. -/
  | word (w : Word)
  /-- A fault in place of the outcome (R191). -/
  | fault (cause : Cause) (field : FieldName)
  /-- DEC.DATA's operand tuple (R89). -/
  | data (t : DataTuple)
  /-- DEC.FRAME's four results (R107). -/
  | frame (t : FrameTriple) (gap : Nat)
  /-- UNPACK's field values, in layout order (R118). -/
  | fields (v : FieldValues)
  /-- CLASSIFY's kind (R124). -/
  | kind (k : Kind)
  /-- A word and its token: SAMPLE and the steps of SEQ (R151, R164, R165). -/
  | token (w : Word) (tok : Text)
  /-- A text: RENDER.HEX's token, GEN.CHUNK's line (R135, R160). -/
  | text (t : Text)
  /-- GEN.OUTPUT's lines (R162). -/
  | lines (ls : List Text)
  deriving DecidableEq, Repr

/-- What the host does to the hardware (R217), one event a transaction. -/
inductive HostEvent where
  /-- Present an operation to a block directly. -/
  | present (p : Presented)
  /-- Set N, C, FRAME_MODE, the frame operand triples and LINE_BREAK. -/
  | configure (cfg : RunConfig)
  /-- Supply a random source that gives these answers first. -/
  | supplySource (script : List Nat)
  /-- Supply an open, empty sink that gives these answers first. -/
  | supplySink (answers : List Bool)
  /-- Start the run (R166). -/
  | start
  /-- Apply reset (R210). -/
  | reset
  /-- Do nothing, so that SEQ takes its turn. -/
  | letRun
  deriving DecidableEq, Repr

/-- Whose turn it is: an operation the host presented, a presentation that is no encoding, another event of the
host, or SEQ. -/
inductive Turn where
  | operation (i : Instr)
  | rejected (e : DecodeError)
  | host (e : HostEvent)
  | seq
  deriving DecidableEq, Repr

/-- The whole state. -/
structure State where
  /-- Output port `word` (R12). -/
  word : Word
  /-- Output port `fault` (R12). -/
  fault : Bool
  /-- Output port `fault_cause` (R12). -/
  faultCause : BitVec 3
  /-- Output port `fault_field` (R12). -/
  faultField : BitVec 5
  /-- Data words emitted so far in the current chunk (R13). -/
  widx : Nat
  /-- Chunks completed so far (R13). -/
  cidx : Nat
  /-- The phase of SEQ (R14). -/
  phase : Phase
  /-- The fault record FR (R15). -/
  fr : Option FaultRecord
  /-- The output stream OUT (R18). -/
  out : OutStream
  /-- The configuration (R16): written by the host's event and by GEN.CHUNK and GEN.OUTPUT alone. -/
  cfg : RunConfig
  /-- The random source (R19). -/
  src : Source
  /-- The sink (R43). -/
  sink : Sink
  /-- The outcome the last operation gave its caller. The model's own field: log 8. -/
  result : Result
  /-- The host's pending events, oldest first. The model's own field: log 1. -/
  inbox : List HostEvent
  /-- Index of the next free value. The model's own field: log 6. -/
  freeCount : Nat
  deriving DecidableEq, Repr

/-- Why the machine stops: states in which no step is enabled, which U12 calls stuck. Each is raised for a use of
the machine that R217 assumes never happens, or at the end of the host's events; each is safe, since the machine
stops and no claim about what follows can be proved. -/
inductive Fault where
  /-- Raised by step: nothing is presented and SEQ waits for a start (R14). Safe. -/
  | stuckIdle
  /-- Raised by step: nothing is presented and the run has ended (R213). Safe. -/
  | stuckDone
  /-- Raised by step: nothing is presented and SEQ has recorded a fault (R15, R193). Safe. -/
  | stuckFaulted
  /-- Raised by step: SEQ is past the end of its chunk, a position no run reaches (R13, R22). Safe. -/
  | stuckPosition
  /-- Raised by the start event, GEN.CHUNK and GEN.OUTPUT: a second run without a reset (U12, R213). Safe. -/
  | startWithoutReset
  /-- Raised by the configure event: a configuration set after a run started (U12, R196). Safe. -/
  | configureAfterStart
  /-- Raised by the events that supply a source or a sink: a change during a run (U12, R217). Safe. -/
  | supplyDuringRun
  deriving DecidableEq, Repr

/-- Why the model gives no meaning. -/
inductive Refusal where
  /-- Raised by an arm of exec whose instruction has no meaning yet. Safe. -/
  | notModelled (mnemonic : String)
  /-- Raised by step: what is presented is no encoding (R60 row 1, R50). Safe. -/
  | noEncoding (e : DecodeError)
  /-- Raised by PACK and UNPACK: the operand is not a proper layout, which R117 and R118 require. Safe. -/
  | improperLayout
  /-- Raised by PACK: an input field of the layout has no value, which R117 requires. Safe. -/
  | missingValue
  deriving DecidableEq, Repr

/-- OUT when it holds nothing (R23). -/
def OutStream.empty : OutStream := ⟨[], []⟩

/-- The configuration before the host gives one (R16, R23): N is 254, FRAME_MODE is FIXED, LINE_BREAK is LF; C has
no default and stands at 0, which the start step rejects. DESIGN CHOICE, log 12 and 14. -/
def RunConfig.initial : RunConfig :=
  { n := Config.defaultNumDataWords, c := 0, mode := .fixed, frames := [], lineBreak := Config.defaultLineBreak }

/-- The state right after reset (R23, R211). The ports R23 leaves unspecified stand at 0 (DESIGN CHOICE, log 7). -/
def State.reset : State :=
  { word := 0, fault := false, faultCause := 0, faultField := 0
    widx := 0, cidx := 0, phase := .idle, fr := Option.none, out := OutStream.empty
    cfg := RunConfig.initial, src := ⟨[], 0⟩, sink := ⟨[], [], 0⟩
    result := .none, inbox := [], freeCount := 0 }

end Sys2Proof.Machine
end

