-- ==== Sys2Proof/Machine/Flags.lean ====
section
/-! DEFINITION. There are no arithmetic flags (R15). What an operation signals instead is the code of its fault:
the numbers of R181 for the ports `fault_cause` and `fault_field`. -/

namespace Sys2Proof.Machine

/-- `fault_cause` of R181. -/
def causeCode : Cause → BitVec 3
  | .rangeViolation => 1#3
  | .renderOverflow => 2#3
  | .sinkFailure => 3#3
  | .configInvalid => 4#3
  | .malformedWord => 5#3

/-- `fault_field` of R181; a free value for a name that the table does not hold (log 31). The number follows the name
alone, also beside a cause that R181 does not list with it (PACK of a layout with such a name: DESIGN CHOICE, log 33). -/
def fieldCode : FieldName → BitVec 5
  | .none => 0#5
  | .address => 1#5
  | .addressArbiter => 2#5
  | .addressPileup => 3#5
  | .leadingCoarseTime => 4#5
  | .leadingFineTime => 5#5
  | .trailingCoarseTime => 6#5
  | .trailingFineTime => 7#5
  | .qchipCollisionCount => 8#5
  | .hitCounter => 9#5
  | .frameCounter => 10#5
  | .dataSelector => 11#5
  | .leadingCoarseTimeSelector => 12#5
  | .trailingCoarseTimeSelector => 13#5
  | .frameSelector => 14#5
  | .gap => 15#5
  | .width => 16#5
  | .numChunks => 17#5
  | .numDataWords => 18#5
  | .other name => BitVec.ofNat 5 (Config.fieldNumber name % 19)

end Sys2Proof.Machine
end

