-- ==== Sys2Proof/Machine/Ops.lean ====
section
/-! DEFINITION. The named operations on the state: delivering an outcome, taking a fault (R191, R170), Emit and the
closing of a chunk (R32), Draw (R146), a write to the sink (R169), reset (R211), and whose turn it is. -/

namespace Sys2Proof.Machine

/-- The word that an outcome puts on the `word` port, if it has one (R12). -/
def wordOfResult : Result → Option Word
  | .word w => some w
  | .token w _ => some w
  | _ => none

/-- The ports and the caller's result when an operation ends without a fault (R12). Where the outcome has no word
the `word` port carries a free value: log 6. -/
def answer (r : Result) (s : State) : State :=
  { s with result := r, word := (wordOfResult r).getD (Config.freeWord s.freeCount),
           freeCount := if (wordOfResult r).isSome then s.freeCount else s.freeCount + 1,
           fault := false, faultCause := 0, faultField := 0 }

/-- Taking a fault (R191): the outcome is the fault in place of a word, the ports carry its codes, `word` is
unspecified, and nothing else changes. That the ports show the outcomes of every agent is log 5. -/
def raiseFault (f : FaultInfo) (s : State) : State :=
  { s with result := .fault f.cause f.field, word := Config.freeWord s.freeCount, freeCount := s.freeCount + 1,
           fault := true, faultCause := causeCode f.cause, faultField := fieldCode f.field }

/-- The outcome of an operation surfaced to its caller (R10, R191). -/
def deliver (e : Except FaultInfo Result) (s : State) : State :=
  match e with
  | .ok r => answer r s
  | .error f => raiseFault f s

/-- A fault of an operation that SEQ performs (R170, R194): besides R191, FR keeps the first fault and the phase
becomes FAULTED; the counters and OUT stay. -/
def seqFault (f : FaultInfo) (op : OpName) (s : State) : State :=
  let s := raiseFault f s
  { s with fr := some (s.fr.getD ⟨f.cause, f.field, op⟩), phase := .faulted }

/-- The return from a fault: there is none but reset (R193, R211). Reset clears SEQ, FR, OUT and the ports; the
configuration, the random source and the sink are the host's and stay, as do its pending events (log 25). -/
def applyReset (s : State) : State :=
  { State.reset with
    cfg := s.cfg, src := s.src, sink := s.sink, inbox := s.inbox, freeCount := s.freeCount }

/-- `Emit(w)` of a data word (R32): `w` becomes the last word of the open chunk. -/
def emit (w : Word) (s : State) : State :=
  { s with out := { s.out with openChunk := s.out.openChunk ++ [w] } }

/-- `Emit(w)` of the frame word that closes the chunk, and the closing, in one step (R32). -/
def emitClosing (w : Word) (s : State) : State :=
  { s with out := { closed := s.out.closed ++ [s.out.openChunk ++ [w]], openChunk := [] } }

/-- `Draw(lo, hi)` (R146): a scripted answer inside the interval is the answer; else the answer is a free value of
the interval (log 9). Either way the source advances. -/
def draw (lo hi : Nat) (src : Source) : Nat × Source :=
  let free := lo + Config.drawAnswer src.draws % (hi - lo + 1)
  match src.script with
  | [] => (free, { src with draws := src.draws + 1 })
  | r :: rest => (if lo ≤ r ∧ r ≤ hi then r else free, { script := rest, draws := src.draws + 1 })

/-- The sink's answer to a write, and its answers after it (R186): scripted, else free (log 10). -/
def sinkDecision (k : Sink) : Bool × List Bool :=
  match k.answers with
  | [] => (Config.sinkAnswer k.writes, [])
  | b :: rest => (b, rest)

/-- Handing text to the sink (R9 `EmitText`, R169): the sink after the write, and whether it accepted. After a
refusal its contents are a free value (U5, log 11). -/
def sinkWrite (t : Text) (k : Sink) : Bool × Sink :=
  ((sinkDecision k).1,
   { text := if (sinkDecision k).1 then k.text ++ t else Config.sinkAfterFailure k.writes
     answers := (sinkDecision k).2, writes := k.writes + 1 })

/-- `raise SinkFailure` (R169, R181). -/
def sinkFailure : FaultInfo := ⟨.sinkFailure, .none⟩

/-- `raise ConfigInvalid(field)` (R187). -/
def configInvalid (f : FieldName) : FaultInfo := ⟨.configInvalid, f⟩

/-- Whose turn it is, and the state with the host's event taken: the host's oldest pending event, else SEQ (DESIGN
CHOICE, log 1 and 21). This is the nearest thing to a fetch (R13). -/
def nextTurn (s : State) : Turn × State :=
  match s.inbox with
  | [] => (.seq, s)
  | .present p :: rest =>
    (match decode p with
      | .ok i => .operation i
      | .error e => .rejected e,
     { s with inbox := rest })
  | e :: rest => (.host e, { s with inbox := rest })

/-- The state with a presentation put before every pending event of the host. -/
def presentNext (p : Presented) (s : State) : State := { s with inbox := .present p :: s.inbox }

end Sys2Proof.Machine
end

