-- ==== Sys2Proof/Machine/Data.lean ====
section
/-! DEFINITION. ENC.DATA, the predicate WF_DATA and DEC.DATA (40_data_word_encoder.md). -/

namespace Sys2Proof.Machine

/-- ENC.DATA's shift-and-OR composition (R82), over the naturals. -/
def dataWordNat (t : DataTuple) : Nat :=
  1 <<< 47 ||| t.address <<< 40 ||| onehot t.arbPos <<< 35 ||| pileupMask t.pileup <<< 30 ||| 0 <<< 29
    ||| t.leadCoarse <<< 17 ||| t.leadFine <<< 12 ||| 0 <<< 11 ||| t.trailCoarse <<< 5 ||| t.trailFine

/-- ENC.DATA (R80 to R84), a function of its operands alone. -/
def encData (t : DataTuple) : Except FaultInfo Word :=
  match dataRangeFault t with
  | some f => .error (rangeViolation f)
  | none => .ok (BitVec.ofNat 48 (dataWordNat t))

/-- WF_DATA (R86), on a natural. -/
def wfDataNat (v : Nat) : Bool :=
  decide (slice v 47 47 = 1) && decide (slice v 29 29 = 0) && decide (slice v 11 11 = 0) &&
  decide (slice v 46 40 ≤ 89) && decide (popcount (slice v 39 35) = 1) && decide (popcount (slice v 34 30) ≤ 1)

/-- WF_DATA (R86). -/
def wfData (w : Word) : Bool := wfDataNat w.toNat

/-- The first test of DEC.DATA that fails, in its order (R89). -/
def decDataFault (v : Nat) : Option FieldName :=
  if v ≥ 2 ^ 48 then some .width
  else if slice v 47 47 ≠ 1 then some .dataSelector
  else if slice v 47 45 = 7 then some .address
  else if slice v 46 40 > 89 then some .address
  else if popcount (slice v 39 35) ≠ 1 then some .addressArbiter
  else if popcount (slice v 34 30) > 1 then some .addressPileup
  else if slice v 29 29 ≠ 0 then some .leadingCoarseTimeSelector
  else if slice v 11 11 ≠ 0 then some .trailingCoarseTimeSelector
  else none

/-- The fields DEC.DATA reads off (R89). -/
def dataTupleOf (v : Nat) : DataTuple :=
  { address := slice v 46 40
    arbPos := maskPos (slice v 39 35)
    pileup := if slice v 34 30 = 0 then none else some (maskPos (slice v 34 30))
    leadCoarse := slice v 28 17, leadFine := slice v 16 12
    trailCoarse := slice v 10 5, trailFine := slice v 4 0 }

/-- DEC.DATA (R89). -/
def decData (v : Nat) : Except FaultInfo DataTuple :=
  match decDataFault v with
  | some f => .error (malformedWord f)
  | none => .ok (dataTupleOf v)

/-- ENC.DATA presented directly (R84: no effect but its outcome). -/
def execEncData (p : DataPorts) (s : State) : Host.Outcome State Fault Refusal :=
  .next (deliver ((encData (tupleOfPorts p)).map .word) s)

/-- DEC.DATA presented directly. -/
def execDecData (v : Nat) (s : State) : Host.Outcome State Fault Refusal :=
  .next (deliver ((decData v).map .data) s)

end Sys2Proof.Machine
end

