-- ==== Sys2Proof/Machine/Frame.lean ====
section
/-! DEFINITION. ENC.FRAME, ENC.FRAMEK, the predicates WF_FRAME and WF_FRAME_OR_K, DEC.FRAME and the sentinel row
(41_frame_word_encoder.md, R61). -/

namespace Sys2Proof.Machine

/-- ENC.FRAME's shift-and-OR composition (R102), over the naturals. -/
def frameWordNat (t : FrameTriple) : Nat :=
  7 <<< 45 ||| 0 <<< 43 ||| t.qchipCc <<< 37 ||| t.hitCnt <<< 28 ||| t.frameCnt

/-- ENC.FRAME (R100 to R102). -/
def encFrame (t : FrameTriple) : Except FaultInfo Word :=
  match frameRangeFault t with
  | some f => .error (rangeViolation f)
  | none => .ok (BitVec.ofNat 48 (frameWordNat t))

/-- ENC.FRAMEK (R103): the sentinel, whatever stands on the ports. -/
def encFramek : Except FaultInfo Word := .ok (BitVec.ofNat 48 Config.frameSentinel)

/-- WF_FRAME (R105), on a natural. -/
def wfFrameNat (v : Nat) : Bool := decide (slice v 47 45 = 7) && decide (slice v 44 43 = 0)

/-- WF_FRAME (R105). -/
def wfFrame (w : Word) : Bool := wfFrameNat w.toNat

/-- WF_FRAME_OR_K (R105). -/
def wfFrameOrK (w : Word) : Bool := wfFrame w || decide (w.toNat = Config.frameSentinel)

/-- The first test of DEC.FRAME that fails, in its order (R107). -/
def decFrameFault (v : Nat) : Option FieldName :=
  if v ≥ 2 ^ 48 then some .width
  else if slice v 47 45 ≠ 7 then some .frameSelector
  else if slice v 44 43 ≠ 0 ∧ v ≠ Config.frameSentinel then some .gap
  else none

/-- The counters DEC.FRAME reads off (R107). -/
def frameTripleOf (v : Nat) : FrameTriple :=
  { qchipCc := slice v 42 37, hitCnt := slice v 36 28, frameCnt := slice v 27 0 }

/-- DEC.FRAME (R107): the three counters and the gap. -/
def decFrame (v : Nat) : Except FaultInfo (FrameTriple × Nat) :=
  match decFrameFault v with
  | some f => .error (malformedWord f)
  | none => .ok (frameTripleOf v, slice v 44 43)

/-- DEC.FRAME's results as an outcome. -/
def frameResult (r : FrameTriple × Nat) : Result := .frame r.1 r.2

/-- ENC.FRAME presented directly. -/
def execEncFrame (t : FrameTriple) (s : State) : Host.Outcome State Fault Refusal :=
  .next (deliver ((encFrame t).map .word) s)

/-- ENC.FRAMEK presented directly. -/
def execEncFramek (s : State) : Host.Outcome State Fault Refusal :=
  .next (deliver (encFramek.map .word) s)

/-- DEC.FRAME presented directly. -/
def execDecFrame (v : Nat) (s : State) : Host.Outcome State Fault Refusal :=
  .next (deliver ((decFrame v).map frameResult) s)

/-- The sentinel row (R61; DEDUCED, log 4): the literal word at the decoder, DEC.FRAME's special case. -/
def execFrameSentinel (s : State) : Host.Outcome State Fault Refusal :=
  .next (deliver ((decFrame Config.frameSentinel).map frameResult) s)

end Sys2Proof.Machine
end

