-- ==== Sys2Proof/Machine/Mux.lean ====
section
/-! DEFINITION. The bit-field multiplexer (42_bitfield_mux.md): PACK, UNPACK, MUX.SEL and CLASSIFY. -/

namespace Sys2Proof.Machine

/-- PACK's accumulation `w <- w | (x << offset)` over the fields (R117), from `acc`. -/
def packAcc (vals : FieldValues) : Layout → Nat → Nat
  | [], acc => acc
  | f :: rest, acc => packAcc vals rest (acc ||| fieldValue vals f <<< f.offset)

/-- PACK (R117): the checks in table order, then the placement. It takes every proper layout, also one whose words
R60, D9, R105 or R138 leave to no operation, such as a word with bit 47 = 0, or one with bits 47..45 = 111 and a gap of
1..3 that is not the sentinel (DESIGN CHOICE, log 32), and one whose input field has a name that R181 keeps to other faults; that name is then the one raised (DESIGN CHOICE, log 33). -/
def pack (l : Layout) (vals : FieldValues) : Except FaultInfo Word :=
  match packRangeFault l vals with
  | some n => .error (rangeViolation n)
  | none => .ok (BitVec.ofNat 48 (packAcc vals l 0))

/-- UNPACK (R118): every field's value, in table order; it checks nothing. -/
def unpack (l : Layout) (w : Word) : FieldValues :=
  l.map fun f => (f.name, slice w.toNat (f.offset + f.width - 1) f.offset)

/-- MUX.SEL (R122): the outcome of the selected operation; the other ports are not read (R123). -/
def muxSel (selFrame frameFixed : Bool) (p : Ports) : Except FaultInfo Word :=
  if selFrame = false then encData (tupleOfPorts p.data)
  else if frameFixed = false then encFrame p.frame
  else encFramek

/-- PACK presented directly. R117 asks for a proper layout and a value for every input field (DEDUCED, log 22);
that every proper layout is taken, against R60 and R105, is log 32 (DESIGN CHOICE). -/
def execPack (l : Layout) (vals : FieldValues) (s : State) : Host.Outcome State Fault Refusal :=
  if properLayout l = false then .refused .improperLayout
  else if l.all (hasValue vals) = false then .refused .missingValue
  else .next (deliver ((pack l vals).map .word) s)

/-- UNPACK presented directly. R118 asks for a proper layout (DEDUCED, log 22). -/
def execUnpack (l : Layout) (w : Word) (s : State) : Host.Outcome State Fault Refusal :=
  if properLayout l = false then .refused .improperLayout
  else .next (deliver (.ok (.fields (unpack l w))) s)

/-- MUX.SEL presented directly. -/
def execMuxSel (selFrame frameFixed : Bool) (p : Ports) (s : State) : Host.Outcome State Fault Refusal :=
  .next (deliver ((muxSel selFrame frameFixed p).map .word) s)

/-- CLASSIFY presented directly (R124): it cannot fault. -/
def execClassify (w : Word) (s : State) : Host.Outcome State Fault Refusal :=
  .next (deliver (.ok (.kind (kindOfWord w))) s)

end Sys2Proof.Machine
end

