-- ==== Sys2Proof/Machine/Render.lean ====
section
/-! DEFINITION. RENDER.HEX (43_render_hex.md) and the text form of the output stream (R43). -/

namespace Sys2Proof.Machine

/-- HEXDIGIT (R136): the lowercase hexadecimal digit of 0..15. -/
def hexDigit (d : Nat) : Char :=
  ['0', '1', '2', '3', '4', '5', '6', '7', '8', '9', 'a', 'b', 'c', 'd', 'e', 'f'].getD d '0'

/-- The 12 characters of a value below `2^48`, most significant nibble first (R34, R135). -/
def hexToken (v : Nat) : Text :=
  (List.range 12).map fun k => hexDigit (slice v (47 - 4 * k) (44 - 4 * k))

/-- RENDER.HEX (R135). The overflowing value itself is not recorded (R181). -/
def renderHex (v : Nat) : Except FaultInfo Text :=
  if v ≥ 2 ^ 48 then .error ⟨.renderOverflow, .none⟩ else .ok (hexToken v)

/-- The tokens of a chunk with single spaces between them (R43). -/
def joinTokens : List Word → Text
  | [] => []
  | [w] => hexToken w.toNat
  | w :: rest => hexToken w.toNat ++ ' ' :: joinTokens rest

/-- `Line(c)` of R43. -/
def lineText (lineBreak : Text) (chunk : List Word) : Text := joinTokens chunk ++ lineBreak

/-- `Text(OUT)` of R43, for a list of closed chunks. -/
def streamText (lineBreak : Text) (chunks : List (List Word)) : Text :=
  (chunks.map (lineText lineBreak)).flatten

/-- RENDER.HEX presented directly. -/
def execRenderHex (v : Nat) (s : State) : Host.Outcome State Fault Refusal :=
  .next (deliver ((renderHex v).map .text) s)

end Sys2Proof.Machine
end

