-- ==== Sys2Proof/Machine/Sampler.lean ====
section
/-! DEFINITION. The field source (44_sampler.md): the draws of SAMPLE in the order of R152, and SAMPLE itself. -/

namespace Sys2Proof.Machine

/-- Step 3 of SAMPLE (R149): the trigger, and a position drawn only when it is 0. -/
def samplePileup (src : Source) : Option Nat × Source :=
  let trigger := draw 0 (Config.pileupModulus - 1) src
  let position := draw 0 4 trigger.2
  if trigger.1 = 0 then (some position.1, position.2) else (none, trigger.2)

/-- Steps 1 to 5 of SAMPLE (R147 to R151): the field values, drawn in the order of R152, and the source after. -/
def sampleFields (src : Source) : DataTuple × Source :=
  let address := draw 0 89 src
  let arbPos := draw 0 4 address.2
  let pileup := samplePileup arbPos.2
  let leadCoarse := draw 0 4095 pileup.2
  let leadFine := draw 0 31 leadCoarse.2
  let trailCoarse := draw 0 63 leadFine.2
  let trailFine := draw 0 31 trailCoarse.2
  (⟨address.1, arbPos.1, pileup.1, leadCoarse.1, leadFine.1, trailCoarse.1, trailFine.1⟩, trailFine.2)

/-- A word and its token, as SAMPLE returns them and SEQ hands them on (R151, R164, R165), or the fault and the
operation that raised it: the encoder's fault first, then the renderer's (R190). -/
def renderWord (op : OpName) (e : Except FaultInfo Word) : Except (FaultInfo × OpName) (Word × Text) :=
  match e with
  | .error f => .error (f, op)
  | .ok w =>
    match renderHex w.toNat with
    | .error f => .error (f, .renderHex)
    | .ok tok => .ok (w, tok)

/-- Step 6 of SAMPLE (R151): encode the sampled fields and render the word. -/
def sampleWord (src : Source) : Except (FaultInfo × OpName) (Word × Text) :=
  renderWord .encData (encData (sampleFields src).1)

/-- SAMPLE presented directly (R153): the random source advances, and the outcome is the word and its token. -/
def execSample (s : State) : Host.Outcome State Fault Refusal :=
  .next (deliver
    (match sampleWord s.src with
      | .ok (w, tok) => .ok (.token w tok)
      | .error (f, _) => .error f)
    { s with src := (sampleFields s.src).2 })

end Sys2Proof.Machine
end

