-- ==== Sys2Proof/Machine/Sequencer.lean ====
section
/-! DEFINITION. The chunk sequencer SEQ (45_chunk_sequencer.md): its data-word, frame-word and start steps, the
procedures GEN.CHUNK and GEN.OUTPUT, which run those steps to the end, and the host's events (R217). -/

namespace Sys2Proof.Machine

/-- `FrameWord()` (R163) in FIXED mode, or from the triple of the chunk in GENERAL mode. -/
def frameWord (mode : FrameMode) (t : FrameTriple) : Except FaultInfo Word :=
  match mode with
  | .fixed => encFramek
  | .general => encFrame t

/-- The frame operand triple of the current chunk (R163): the host's, else a free value (log 14). -/
def chunkTriple (s : State) : FrameTriple := (s.cfg.frames[s.cidx]?).getD (Config.frameOperands s.freeCount)

/-- The write of a step of SEQ (R164, R165, R169): `accepted` follows an accepting sink, and a refused write is a
SinkFailure that emits nothing (DEDUCED, log 16). -/
def seqWrite (t : Text) (op : OpName) (accepted : State → State) (s : State) : State :=
  if (sinkWrite t s.sink).1 then accepted { s with sink := (sinkWrite t s.sink).2 }
  else seqFault sinkFailure op { s with sink := (sinkWrite t s.sink).2 }

/-- Emitting a data word (R164): `Emit`, and `widx` advances. -/
def emitData (w : Word) (tok : Text) (s : State) : State :=
  answer (.token w tok) { emit w s with widx := s.widx + 1 }

/-- Emitting the frame word (R165): the chunk is closed, `widx` returns to 0, `cidx` advances, and the run is DONE
when every chunk has been emitted. -/
def emitFrame (w : Word) (tok : Text) (s : State) : State :=
  answer (.token w tok)
    { emitClosing w s with
      widx := 0, cidx := s.cidx + 1, phase := if s.cidx + 1 = s.cfg.c then .done else s.phase }

/-- The data-word step of SEQ (R164, R170). -/
def seqData (s : State) : State :=
  match sampleWord s.src with
  | .error (f, op) => seqFault f op { s with src := (sampleFields s.src).2 }
  | .ok (w, tok) => seqWrite (tok ++ [' ']) .dataStep (emitData w tok) { s with src := (sampleFields s.src).2 }

/-- The frame-word step of SEQ (R165, R170). A free triple of GENERAL mode uses up one free value. -/
def seqFrame (s : State) : State :=
  match renderWord .encFrame (frameWord s.cfg.mode (chunkTriple s)) with
  | .error (f, op) => seqFault f op { s with freeCount := s.freeCount + 1 }
  | .ok (w, tok) =>
    seqWrite (tok ++ s.cfg.lineBreak) .frameStep (emitFrame w tok) { s with freeCount := s.freeCount + 1 }

/-- The step of SEQ that is enabled, if one is (R164, R165): SEQ emits nothing while FR is not none (R15). -/
def seqAdvance (s : State) : Option State :=
  if s.phase = .run ∧ s.fr = none then
    if s.widx < s.cfg.n then some (seqData s)
    else if s.widx = s.cfg.n then some (seqFrame s)
    else none
  else none

/-- Steps of SEQ while one is enabled, at most `fuel` of them. -/
def seqRun : Nat → State → State
  | 0, s => s
  | fuel + 1, s =>
    match seqAdvance s with
    | some s' => seqRun fuel s'
    | none => s

/-- A run may be started: SEQ is as reset left it (R166, U12; DEDUCED, log 13). -/
def startable (s : State) : Bool := decide (s.phase = .idle) && decide (s.fr = none)

/-- The start step (R166): the configuration is checked for positivity, C first, and the run begins. -/
def seqStart (op : OpName) (s : State) : State :=
  if s.cfg.c < 1 then seqFault (configInvalid .numChunks) op s
  else if s.cfg.n < 1 then seqFault (configInvalid .numDataWords) op s
  else { s with widx := 0, cidx := 0, phase := .run }

/-- A whole run of `c` chunks of `n` data words (R161, R162) as the steps of SEQ: the start step, then at most
`c * (n + 1)` steps (R213). DEDUCED, log 15. -/
def runAll (op : OpName) (c n : Nat) (s : State) : State :=
  seqRun (c * (n + 1)) (seqStart op { s with cfg := { s.cfg with c := c, n := n } })

/-- The caller's outcome of a whole run: `r` when it reached its end; a run that faulted has given its fault. -/
def finishRun (r : Result) (s : State) : State := if s.phase = .done then { s with result := r } else s

/-- The lines of the chunks that were closed (R43, R162). -/
def closedLines (s : State) : List Text := s.out.closed.map (lineText s.cfg.lineBreak)

/-- GEN.CHUNK (R160, R161): a run of one chunk; the outcome is its line. In GENERAL mode a bad triple ends it in a
RangeViolation, as R163, R170 and R184 say and R161 does not (DESIGN CHOICE, log 34). -/
def execGenChunk (n : Nat) (s : State) : Host.Outcome State Fault Refusal :=
  if startable s then
    .next (finishRun (.text (closedLines (runAll .genChunk 1 n s)).flatten) (runAll .genChunk 1 n s))
  else .fault .startWithoutReset

/-- GEN.OUTPUT (R162): a run of `c` chunks; the outcome is its lines. -/
def execGenOutput (c n : Nat) (s : State) : Host.Outcome State Fault Refusal :=
  if startable s then
    .next (finishRun (.lines (closedLines (runAll .genOutput c n s))) (runAll .genOutput c n s))
  else .fault .startWithoutReset

/-- Why SEQ has no step (R14, U12; log 21 and 29). -/
def stuckReason (s : State) : Fault :=
  if s.fr ≠ none then .stuckFaulted
  else match s.phase with
    | .idle => .stuckIdle
    | .done => .stuckDone
    | .faulted => .stuckFaulted
    | .run => .stuckPosition

/-- SEQ's turn when the host has no event pending: the enabled step, or stuck. -/
def seqTurn (s : State) : Host.Outcome State Fault Refusal :=
  match seqAdvance s with
  | some s' => .next s'
  | none => .fault (stuckReason s)

/-- The host's events but `present` (R217). The configuration is set before a run starts (R196); a source or a sink
is not changed during a run (R217; DEDUCED, log 13). -/
def hostEvent (e : HostEvent) (s : State) : Host.Outcome State Fault Refusal :=
  match e with
  | .present p => .next (presentNext p s)
  | .configure cfg => if s.phase = .idle then .next { s with cfg := cfg } else .fault .configureAfterStart
  | .supplySource script =>
    if s.phase = .run then .fault .supplyDuringRun else .next { s with src := { s.src with script := script } }
  | .supplySink answers =>
    if s.phase = .run then .fault .supplyDuringRun
    else .next { s with sink := { text := [], answers := answers, writes := s.sink.writes } }
  | .start => if startable s then .next (seqStart .start s) else .fault .startWithoutReset
  | .reset => .next (applyReset s)
  | .letRun => .next ((seqAdvance s).getD s)

end Sys2Proof.Machine
end

