-- ==== Sys2Proof/Machine/Dispatch.lean ====
section
/-! DEFINITION. One arm per operation of opcode_table.json. -/

namespace Sys2Proof.Machine

def exec (i : Instr) (s : State) : Host.Outcome State Fault Refusal :=
  match i with
  | .encData p => Sys2Proof.Machine.execEncData p s
  | .encFrame t => Sys2Proof.Machine.execEncFrame t s
  | .encFramek => Sys2Proof.Machine.execEncFramek s
  | .decFrame v => Sys2Proof.Machine.execDecFrame v s
  | .decData v => Sys2Proof.Machine.execDecData v s
  | .frameSentinel => Sys2Proof.Machine.execFrameSentinel s
  | .muxSel selFrame frameFixed p => Sys2Proof.Machine.execMuxSel selFrame frameFixed p s
  | .pack l vals => Sys2Proof.Machine.execPack l vals s
  | .unpack l w => Sys2Proof.Machine.execUnpack l w s
  | .classify w => Sys2Proof.Machine.execClassify w s
  | .renderHex v => Sys2Proof.Machine.execRenderHex v s
  | .sample => Sys2Proof.Machine.execSample s
  | .genChunk n => Sys2Proof.Machine.execGenChunk n s
  | .genOutput c n => Sys2Proof.Machine.execGenOutput c n s

end Sys2Proof.Machine
end

