-- ==== Sys2Proof/Machine/Step.lean ====
section
/-! DEFINITION. One transaction of the machine (R5): the host's oldest pending event, or SEQ's turn. -/

namespace Sys2Proof.Machine

/-- One step. -/
def step (s : State) : Host.Outcome State Fault Refusal :=
  match nextTurn s with
  | (.operation i, s') => exec i s'
  | (.rejected e, _) => .refused (.noEncoding e)
  | (.host e, s') => hostEvent e s'
  | (.seq, s') => seqTurn s'

/-- The state with an opcode-table row's bits as the host's next event. -/
def State.withFetchWord (s : State) (nbits w : Nat) : State := presentNext (tablePresented nbits w) s

end Sys2Proof.Machine
end

