-- ==== Sys2Proof/Safety.lean ====
section
/-! DEFINITION. What the claims speak of: legal operands (R81, R101), what an operation leaves alone, a run's state
invariants (R22), and a finished run (R213). -/

namespace Sys2Proof.Machine

/-- Every operand of ENC.DATA is inside its legal range (R80). -/
abbrev DataLegal (t : DataTuple) : Prop :=
  t.address ≤ 89 ∧ t.arbPos ≤ 4 ∧ (∀ p ∈ t.pileup, p ≤ 4) ∧ t.leadCoarse ≤ 4095 ∧ t.leadFine ≤ 31 ∧
  t.trailCoarse ≤ 63 ∧ t.trailFine ≤ 31

/-- Every operand of ENC.FRAME is inside its legal range (R100). -/
abbrev FrameLegal (t : FrameTriple) : Prop := t.qchipCc ≤ 63 ∧ t.hitCnt ≤ 511 ∧ t.frameCnt ≤ 268435455

/-- The operands that the select inputs choose are legal (R122, R123). -/
abbrev SelectedLegal (selFrame frameFixed : Bool) (p : Ports) : Prop :=
  (selFrame = false → DataLegal (tupleOfPorts p.data)) ∧
  (selFrame = true → frameFixed = false → FrameLegal p.frame)

/-- A data word as a number (R55). -/
def dataSum (t : DataTuple) : Nat :=
  2 ^ 47 + t.address * 2 ^ 40 + 2 ^ t.arbPos * 2 ^ 35 + (t.pileup.elim 0 fun p => 2 ^ p) * 2 ^ 30 +
  t.leadCoarse * 2 ^ 17 + t.leadFine * 2 ^ 12 + t.trailCoarse * 2 ^ 5 + t.trailFine

/-- A frame word as a number (R55). -/
def frameSum (t : FrameTriple) : Nat := 7 * 2 ^ 45 + t.qchipCc * 2 ^ 37 + t.hitCnt * 2 ^ 28 + t.frameCnt

/-- ENC.DATA's operands as PACK takes them (R82): the positions as one-hot masks. -/
def dataPackValues (t : DataTuple) : FieldValues :=
  [(.address, t.address), (.addressArbiter, 2 ^ t.arbPos), (.addressPileup, t.pileup.elim 0 fun p => 2 ^ p),
   (.leadingCoarseTime, t.leadCoarse), (.leadingFineTime, t.leadFine), (.trailingCoarseTime, t.trailCoarse),
   (.trailingFineTime, t.trailFine)]

/-- ENC.FRAME's operands as PACK takes them (R102). -/
def framePackValues (f : FrameTriple) : FieldValues :=
  [(.qchipCollisionCount, f.qchipCc), (.hitCounter, f.hitCnt), (.frameCounter, f.frameCnt)]

/-- The checks of R81, in order: each field with whether its operand passes. -/
def dataChecks (t : DataTuple) : List (FieldName × Bool) :=
  [ (.address, decide (t.address ≤ 89)), (.addressArbiter, decide (t.arbPos ≤ 4)),
    (.addressPileup, decide (∀ p ∈ t.pileup, p ≤ 4)), (.leadingCoarseTime, decide (t.leadCoarse ≤ 4095)),
    (.leadingFineTime, decide (t.leadFine ≤ 31)), (.trailingCoarseTime, decide (t.trailCoarse ≤ 63)),
    (.trailingFineTime, decide (t.trailFine ≤ 31)) ]

/-- The checks of R101, in order. -/
def frameChecks (t : FrameTriple) : List (FieldName × Bool) :=
  [ (.qchipCollisionCount, decide (t.qchipCc ≤ 63)), (.hitCounter, decide (t.hitCnt ≤ 511)),
    (.frameCounter, decide (t.frameCnt ≤ 268435455)) ]

/-- The tests of DEC.DATA, in the order of R89, on the bits of the value. -/
def decDataChecks (v : Nat) : List (FieldName × Bool) :=
  [ (.width, decide (v < 2 ^ 48)), (.dataSelector, v.testBit 47),
    (.address, !(v.testBit 47 && v.testBit 46 && v.testBit 45)),
    (.address, decide (v / 2 ^ 40 % 128 ≤ 89)),
    (.addressArbiter, [1, 2, 4, 8, 16].contains (v / 2 ^ 35 % 32)),
    (.addressPileup, [0, 1, 2, 4, 8, 16].contains (v / 2 ^ 30 % 32)),
    (.leadingCoarseTimeSelector, !v.testBit 29), (.trailingCoarseTimeSelector, !v.testBit 11) ]

/-- The tests of DEC.FRAME, in the order of R107, on the bits of the value. -/
def decFrameChecks (v : Nat) : List (FieldName × Bool) :=
  [ (.width, decide (v < 2 ^ 48)), (.frameSelector, v.testBit 47 && v.testBit 46 && v.testBit 45),
    (.gap, (!v.testBit 44 && !v.testBit 43) || v == 0xe8005000eb00) ]

/-- What PACK places on a field's lane: the constant, or the operand of that name (R117). -/
def operandOf (vals : FieldValues) (f : Field) : Nat :=
  match f.kind with
  | .const c => c
  | .input _ _ => (vals.lookup f.name).getD 0

/-- The operand of PACK holds a value for every input field (R117). -/
abbrev Supplied (l : Layout) (vals : FieldValues) : Prop :=
  ∀ f ∈ l, ∀ lo hi, f.kind = .input lo hi → (vals.lookup f.name).isSome = true

/-- The 48-bit masks with exactly one bit set (R9). -/
def oneHots : List Nat := (List.range 48).map fun p => 2 ^ p

/-- The extra predicate of a field, written out (R116, R181). -/
def condCheck (c : FieldCond) (v : Nat) : Bool :=
  match c with
  | .always => true
  | .oneBit => decide (v ∈ oneHots)
  | .atMostOneBit => decide (v = 0 ∨ v ∈ oneHots)
  | .oneOf accepted => decide (v ∈ accepted)

/-- PACK's check of one field: an input operand is inside `lo .. hi` and satisfies the extra predicate (R117). -/
def operandCheck (vals : FieldValues) (f : Field) : Bool :=
  match f.kind with
  | .const _ => true
  | .input lo hi =>
    decide (lo ≤ operandOf vals f) && decide (operandOf vals f ≤ hi) && condCheck f.cond (operandOf vals f)

/-- The checks of PACK, in the order of the layout (R117). -/
def packChecks (l : Layout) (vals : FieldValues) : List (FieldName × Bool) :=
  l.map fun f => (f.name, operandCheck vals f)

/-- The first check that fails. -/
def firstFailure (cs : List (FieldName × Bool)) : Option FieldName := (cs.find? fun c => !c.2).map (·.1)

/-- The field of each input field's operand and each constant, as UNPACK would return them (R125). -/
def placedValues (l : Layout) (vals : FieldValues) : FieldValues := l.map fun f => (f.name, operandOf vals f)

/-- Nothing changed but the ports and the caller's outcome: SEQ, FR, OUT, the configuration, the random source, the
sink and the host's events are as they were (R37, R84). -/
def OnlyOutcome (s t : State) : Prop :=
  t.widx = s.widx ∧ t.cidx = s.cidx ∧ t.phase = s.phase ∧ t.fr = s.fr ∧ t.out = s.out ∧ t.cfg = s.cfg ∧
  t.src = s.src ∧ t.sink = s.sink ∧ t.inbox = s.inbox

/-- The ports and the caller's outcome after an operation without a fault (R12). -/
def Succeeded (r : Result) (t : State) : Prop :=
  t.result = r ∧ t.fault = false ∧ t.faultCause = 0#3 ∧ t.faultField = 0#5

/-- The ports and the caller's outcome after an operation that produced a word (R12). -/
def ProducedWord (w : Word) (t : State) : Prop := Succeeded (.word w) t ∧ t.word = w

/-- The cause numbers of R181. -/
def causeNumbers : List (Cause × BitVec 3) :=
  [(.rangeViolation, 1#3), (.renderOverflow, 2#3), (.sinkFailure, 3#3), (.configInvalid, 4#3), (.malformedWord, 5#3)]

/-- The field numbers of R181. -/
def fieldNumbers : List (FieldName × BitVec 5) :=
  [(.none, 0#5), (.address, 1#5), (.addressArbiter, 2#5), (.addressPileup, 3#5), (.leadingCoarseTime, 4#5),
   (.leadingFineTime, 5#5), (.trailingCoarseTime, 6#5), (.trailingFineTime, 7#5), (.qchipCollisionCount, 8#5),
   (.hitCounter, 9#5), (.frameCounter, 10#5), (.dataSelector, 11#5), (.leadingCoarseTimeSelector, 12#5),
   (.trailingCoarseTimeSelector, 13#5), (.frameSelector, 14#5), (.gap, 15#5), (.width, 16#5), (.numChunks, 17#5),
   (.numDataWords, 18#5)]

/-- What the `fault_field` port carries for a field: its number in R181; for a name that R181 does not hold, anything
(log 31). -/
abbrev FieldPort (f : FieldName) (n : BitVec 5) : Prop :=
  (f, n) ∈ fieldNumbers ∨ ∃ name, f = .other name

/-- The ports and the caller's outcome after a fault (R191), with the numbers of R181. -/
def Faulted (c : Cause) (f : FieldName) (code : BitVec 3) (t : State) : Prop :=
  t.result = .fault c f ∧ t.fault = true ∧ t.faultCause = code ∧ FieldPort f t.faultField

/-- One chunk of `n` data words closed by a frame word (R22, R168). -/
def chunkWf (n : Nat) (ch : List Word) : Bool :=
  decide (ch.length = n + 1) && (ch.take n).all wfData && (ch.drop n).all wfFrameOrK

/-- The state invariants of R22, with what R13 to R15 say of the phase. -/
structure RunInv (s : State) : Prop where
  widx_le : s.widx ≤ s.cfg.n
  cidx_le : s.cidx ≤ s.cfg.c
  closed_count : s.out.closed.length = s.cidx
  closed_wf : ∀ ch ∈ s.out.closed, chunkWf s.cfg.n ch = true
  open_count : s.out.openChunk.length = s.widx
  open_wf : ∀ w ∈ s.out.openChunk, wfData w = true
  idle_start : s.phase = .idle → s.widx = 0 ∧ s.cidx = 0
  run_inside : s.phase = .run → s.cidx < s.cfg.c
  done_end : s.phase = .done → s.cidx = s.cfg.c ∧ s.widx = 0
  faulted_iff : s.phase = .faulted ↔ s.fr ≠ none

/-- SEQ is as reset leaves it and OUT is empty, so that a run can start (R23, R166). -/
abbrev ReadyToRun (s : State) : Prop := s.phase = .idle ∧ s.fr = none ∧ s.out = OutStream.empty

/-- The sink's next `k` answers all accept (R169, R186). -/
abbrev SinkAccepts (k : Nat) (s : State) : Prop := s.sink.answers.take k = List.replicate k true

/-- The words of OUT in emission order (R18). -/
def emitted (o : OutStream) : List Word := o.closed.flatten ++ o.openChunk

/-- A finished run (R213). -/
abbrev Finished (s : State) : Prop := s.phase = .done

/-- The operations that only return an outcome: all but SAMPLE, GEN.CHUNK and GEN.OUTPUT (R37). -/
def pureOp : Instr → Bool
  | .sample => false
  | .genChunk _ => false
  | .genOutput _ _ => false
  | _ => true

/-- Reading a token back as a base-16 number (R138). -/
def tokenValue (t : Text) : Nat :=
  t.foldl (fun acc ch => acc * 16 + ['0', '1', '2', '3', '4', '5', '6', '7', '8', '9',
    'a', 'b', 'c', 'd', 'e', 'f'].idxOf ch) 0

end Sys2Proof.Machine
end

