-- ==== Sys2Proof/Certificates/Slice0/Obligations.lean ====
section
/-! DEFINITION. The statements for the provers. Each docstring names the rule of spec/ that the statement
formalises, or says what of it is the model's own choice and in which log entry. -/

open Sys2Proof Sys2Proof.Machine

/-! ### Encodings and the step -/

/-- R62, R58, R61: whatever the reference interface can present, the decoder reads back as it was encoded. That a
procedure is presented by name is log 2. -/
def Obligations.DecodeOfEncodeIsTheOperation : Prop :=
  ∀ i : Instr, WellFormed i = true → decode (encode i) = .ok i

/-- R62: the four values of the operation select, with the operands on the ports; no select value and no word is the
bit pattern of any other operation. -/
def Obligations.OperationSelectDecodes : Prop :=
  (∀ p : PortBits,
    decode (.select 0b00#2 p) = .ok (.encData p.data) ∧ decode (.select 0b01#2 p) = .ok (.encData p.data) ∧
    decode (.select 0b10#2 p) = .ok (.encFrame p.frame) ∧ decode (.select 0b11#2 p) = .ok .encFramek) ∧
  (∀ (op : BitVec 2) (p : PortBits) (i : Instr), decode (.select op p) = .ok i →
    i = .encData p.data ∨ i = .encFrame p.frame ∨ i = .encFramek) ∧
  (∀ (w : Word) (i : Instr), decode (.word w) = .ok i →
    i = .frameSentinel ∨ i = .decFrame w.toNat ∨ i = .decData w.toNat)

/-- R58, R60, R61 and the priorities of opcode_table.json (log 3): a bare word is the sentinel, else a frame word
when bits 47..45 are all 1, else a data word when bit 47 is 1, else nothing. -/
def Obligations.BareWordDecodesByItsMarkers : Prop :=
  ∀ w : Word,
    decode (.word w) =
      if w = 0xe8005000eb00#48 then .ok .frameSentinel
      else if w.getLsbD 47 && w.getLsbD 46 && w.getLsbD 45 then .ok (.decFrame w.toNat)
      else if w.getLsbD 47 then .ok (.decData w.toNat)
      else .error .wordOfNoKind

/-- Words written out from opcode_table.json decode to the operations they stand for, and one word of kind NONE (R58,
R60 row 1), which is no row of the table, to none. That a bare word of kind NONE is refused, and that the sentinel
literal is tried before the other formats, are log 3 (DEDUCED). -/
def Obligations.TableWordsDecode : Prop :=
  decodeTableWord 8 0b00 = some (.encData zeroDataPorts) ∧
  decodeTableWord 8 0b10 = some (.encFrame zeroFrameTriple) ∧
  decodeTableWord 8 0b11 = some .encFramek ∧
  decodeTableWord 48 0b111010000000000001010000000000001110101100000000 = some .frameSentinel ∧
  decodeTableWord 48 0b111000000000000000000000000000000000000000000000 = some (.decFrame 0xe00000000000) ∧
  decodeTableWord 48 0b100001010010000000000000110010000011000101000001 = some (.decData 0x852000c83141) ∧
  decodeTableWord 48 0b011111111111111111111111111111111111111111111111 = none

/-- R5: when the host's next event presents an operation, the step is that operation's meaning, on the state with
the event taken. What is no encoding (R60 row 1) is refused by name (log 3). -/
def Obligations.StepRunsThePresentedOperation : Prop :=
  ∀ (s : State) (p : Presented) (rest : List HostEvent), s.inbox = .present p :: rest →
    (∀ i : Instr, decode p = .ok i → step s = exec i { s with inbox := rest }) ∧
    (∀ e : DecodeError, decode p = .error e → step s = .refused (.noEncoding e))

/-! ### ENC.DATA and DEC.DATA -/

/-- R82, R55, R84: with every operand in its range ENC.DATA produces the word that is the sum of the placed fields,
which is PACK of DATA_LAYOUT with the one-hot masks, and changes nothing else. -/
def Obligations.EncDataProducesTheFieldSum : Prop :=
  ∀ (p : DataPorts) (s : State), DataLegal (tupleOfPorts p) →
    ∃ t w, exec (.encData p) s = .next t ∧ ProducedWord w t ∧ w.toNat = dataSum (tupleOfPorts p) ∧
      pack dataLayout (dataPackValues (tupleOfPorts p)) = .ok w ∧ OnlyOutcome s t

/-- R120: the one source of each of the 48 output bits of ENC.DATA. -/
def Obligations.EncDataBitSources : Prop :=
  ∀ (p : DataPorts) (s : State), DataLegal (tupleOfPorts p) →
    ∃ t, exec (.encData p) s = .next t ∧ t.fault = false ∧ ∀ i : Nat, i < 48 →
      t.word.getLsbD i =
        if i = 47 then true
        else if 40 ≤ i then p.address.testBit (i - 40)
        else if 35 ≤ i then p.arbPos == i - 35
        else if 30 ≤ i then p.puValid && p.puPos == i - 30
        else if i = 29 then false
        else if 17 ≤ i then p.leadCoarse.testBit (i - 17)
        else if 12 ≤ i then p.leadFine.testBit (i - 12)
        else if i = 11 then false
        else if 5 ≤ i then p.trailCoarse.testBit (i - 5)
        else p.trailFine.testBit i

/-- R81, R190, R191: the first operand out of range, in table order, is the fault; no word, nothing else changes. -/
def Obligations.EncDataRejectsTheFirstBadOperand : Prop :=
  ∀ (p : DataPorts) (s : State) (f : FieldName), firstFailure (dataChecks (tupleOfPorts p)) = some f →
    ∃ t, exec (.encData p) s = .next t ∧ Faulted .rangeViolation f 1#3 t ∧ OnlyOutcome s t

/-- R88: what holds of every word ENC.DATA returns. -/
def Obligations.EncodedDataWordsKeepTheInvariants : Prop :=
  ∀ (t : DataTuple) (w : Word), encData t = .ok w →
    w.getLsbD 47 = true ∧ w.getLsbD 29 = false ∧ w.getLsbD 11 = false ∧
    w.toNat / 2 ^ 35 % 32 ∈ [1, 2, 4, 8, 16] ∧ w.toNat / 2 ^ 30 % 32 ∈ [0, 1, 2, 4, 8, 16] ∧
    w.toNat / 2 ^ 40 % 128 ≤ 89 ∧ w.toNat / 2 ^ 17 % 4096 = t.leadCoarse ∧ w.toNat / 2 ^ 12 % 32 = t.leadFine ∧
    w.toNat / 2 ^ 5 % 64 = t.trailCoarse ∧ w.toNat % 32 = t.trailFine

/-- R87: the image of ENC.DATA is exactly the well-formed data words, each from one operand tuple; ENC.DATA is
injective on legal operands; there are 724 775 731 200 such words, and none has bits 47..45 = 111. -/
def Obligations.DataWordImageIsWfData : Prop :=
  (∀ (t : DataTuple) (w : Word), encData t = .ok w → wfData w = true) ∧
  (∀ w : Word, wfData w = true → ∃! t : DataTuple, DataLegal t ∧ encData t = .ok w) ∧
  (∀ t t' : DataTuple, DataLegal t → DataLegal t' → encData t = encData t' → t = t') ∧
  Nat.card { w : Word // wfData w = true } = 724775731200 ∧
  (∀ w : Word, wfData w = true → slice w.toNat 47 45 ≠ 7)

/-- R90: encode then decode, and decode then encode. -/
def Obligations.DataRoundTrips : Prop :=
  (∀ t : DataTuple, DataLegal t → ∃ w, encData t = .ok w ∧ decData w.toNat = .ok t) ∧
  (∀ w : Word, wfData w = true → ∃ t, decData w.toNat = .ok t ∧ encData t = .ok w)

/-- R89, R188: DEC.DATA makes its tests in order. The first that fails names the field of a MalformedWord; a value
that passes them all is a well-formed data word and decodes to the fields on its lanes, masks giving positions.
Nothing but the outcome changes. That ENC's ports show the outcome of an operation of DEC is log 5 (DEDUCED). -/
def Obligations.DecDataFollowsItsTests : Prop :=
  ∀ (v : Nat) (s : State),
    (∀ f : FieldName, firstFailure (decDataChecks v) = some f →
      ∃ t, exec (.decData v) s = .next t ∧ Faulted .malformedWord f 5#3 t ∧ OnlyOutcome s t) ∧
    (firstFailure (decDataChecks v) = none ↔ v < 2 ^ 48 ∧ wfDataNat v = true) ∧
    (v < 2 ^ 48 → wfDataNat v = true →
      ∃ t d, exec (.decData v) s = .next t ∧ Succeeded (.data d) t ∧ OnlyOutcome s t ∧
        d.address = v / 2 ^ 40 % 128 ∧ 2 ^ d.arbPos = v / 2 ^ 35 % 32 ∧
        (d.pileup.elim 0 fun p => 2 ^ p) = v / 2 ^ 30 % 32 ∧ d.leadCoarse = v / 2 ^ 17 % 4096 ∧
        d.leadFine = v / 2 ^ 12 % 32 ∧ d.trailCoarse = v / 2 ^ 5 % 64 ∧ d.trailFine = v % 32)

/-! ### ENC.FRAME, ENC.FRAMEK and DEC.FRAME -/

/-- R102: with every counter in its range ENC.FRAME produces the sum of the placed fields, which is PACK of
FRAME_LAYOUT, and changes nothing else. -/
def Obligations.EncFrameProducesTheFieldSum : Prop :=
  ∀ (f : FrameTriple) (s : State), FrameLegal f →
    ∃ t w, exec (.encFrame f) s = .next t ∧ ProducedWord w t ∧
      w.toNat = 7 * 2 ^ 45 + f.qchipCc * 2 ^ 37 + f.hitCnt * 2 ^ 28 + f.frameCnt ∧
      pack frameLayout (framePackValues f) = .ok w ∧ OnlyOutcome s t

/-- R121: the one source of each output bit of ENC.FRAME and of ENC.FRAMEK. -/
def Obligations.FrameBitSources : Prop :=
  ∀ (f : FrameTriple) (s : State), FrameLegal f →
    ∃ t u, exec (.encFrame f) s = .next t ∧ exec .encFramek s = .next u ∧ t.fault = false ∧ u.fault = false ∧
      ∀ i : Nat, i < 48 →
        (t.word.getLsbD i =
          if 45 ≤ i then true
          else if 43 ≤ i then false
          else if 37 ≤ i then f.qchipCc.testBit (i - 37)
          else if 28 ≤ i then f.hitCnt.testBit (i - 28)
          else f.frameCnt.testBit i) ∧
        (u.word.getLsbD i =
          if 45 ≤ i then true
          else if i = 44 then false
          else if i = 43 then true
          else if 37 ≤ i then false
          else if 28 ≤ i then (0b000000101).testBit (i - 28)
          else (0xeb00).testBit i)

/-- R101: the first counter out of range, in table order. -/
def Obligations.EncFrameRejectsTheFirstBadCounter : Prop :=
  ∀ (f : FrameTriple) (s : State) (n : FieldName), firstFailure (frameChecks f) = some n →
    ∃ t, exec (.encFrame f) s = .next t ∧ Faulted .rangeViolation n 1#3 t ∧ OnlyOutcome s t

/-- R103: ENC.FRAMEK returns the sentinel in every state. -/
def Obligations.EncFramekReturnsTheSentinel : Prop :=
  ∀ s : State, ∃ t, exec .encFramek s = .next t ∧ ProducedWord 0xe8005000eb00#48 t ∧ OnlyOutcome s t

/-- R104: no operands of ENC.FRAME give the sentinel; the nearest differ from it in bit 43 alone. -/
def Obligations.SentinelIsNoValueOfEncFrame : Prop :=
  (∀ f : FrameTriple, encFrame f ≠ .ok 0xe8005000eb00#48) ∧
  encFrame ⟨0, 5, 60160⟩ = .ok 0xe0005000eb00#48 ∧
  (0xe0005000eb00#48 ^^^ 0xe8005000eb00#48) = 1#48 <<< 43

/-- R106: the image of ENC.FRAME is the well-formed frame words, each from one triple; they are the `2^43` values of
one interval, and no well-formed data word is among them. -/
def Obligations.FrameWordImageIsOneInterval : Prop :=
  (∀ (f : FrameTriple) (w : Word), encFrame f = .ok w → wfFrame w = true) ∧
  (∀ w : Word, wfFrame w = true → ∃! f : FrameTriple, FrameLegal f ∧ encFrame f = .ok w) ∧
  (∀ w : Word, wfFrame w = true ↔ 0xe00000000000 ≤ w.toNat ∧ w.toNat ≤ 0xe7ffffffffff) ∧
  0xe7ffffffffff - 0xe00000000000 + 1 = 2 ^ 43 ∧
  (∀ w : Word, wfData w = true → wfFrame w = false)

/-- R108: the round trips of frame words, and the sentinel, for which the second fails. -/
def Obligations.FrameRoundTrips : Prop :=
  (∀ f : FrameTriple, FrameLegal f → ∃ w, encFrame f = .ok w ∧ decFrame w.toNat = .ok (f, 0)) ∧
  (∀ w : Word, wfFrame w = true → ∃ f g, decFrame w.toNat = .ok (f, g) ∧ encFrame f = .ok w) ∧
  decFrame 0xe8005000eb00 = .ok (⟨0, 5, 60160⟩, 1) ∧ encFrame ⟨0, 5, 60160⟩ = .ok 0xe0005000eb00#48

/-- R107, R188: DEC.FRAME makes its tests in order. The first that fails names the field of a MalformedWord; a value
that passes them all is a well-formed frame word or the sentinel, and decodes to its counters and its gap. Nothing
but the outcome changes. That ENC's ports show the outcome of an operation of DEC is log 5 (DEDUCED). -/
def Obligations.DecFrameFollowsItsTests : Prop :=
  ∀ (v : Nat) (s : State),
    (∀ n : FieldName, firstFailure (decFrameChecks v) = some n →
      ∃ t, exec (.decFrame v) s = .next t ∧ Faulted .malformedWord n 5#3 t ∧ OnlyOutcome s t) ∧
    (firstFailure (decFrameChecks v) = none ↔ v < 2 ^ 48 ∧ (wfFrameNat v = true ∨ v = 0xe8005000eb00)) ∧
    (v < 2 ^ 48 → wfFrameNat v = true ∨ v = 0xe8005000eb00 →
      ∃ t, exec (.decFrame v) s = .next t ∧
        Succeeded (.frame ⟨v / 2 ^ 37 % 64, v / 2 ^ 28 % 512, v % 2 ^ 28⟩ (v / 2 ^ 43 % 4)) t ∧ OnlyOutcome s t)

/-- R61, R107: the literal row, read as the sentinel at the decoder (log 4), gives `(0, 5, 60160)` and gap 1. That
ENC's ports show the outcome of an operation of DEC is log 5 (DEDUCED). -/
def Obligations.SentinelRowDecodesTheLiteral : Prop :=
  ∀ s : State, ∃ t, exec .frameSentinel s = .next t ∧ Succeeded (.frame ⟨0, 5, 60160⟩ 1) t ∧ OnlyOutcome s t

/-! ### The bit-field multiplexer -/

/-- R122, R123: MUX.SEL is the selected operation on the selected ports, whatever the others carry; every word it
produces has bit 47 set. -/
def Obligations.MuxSelIsTheSelectedOperation : Prop :=
  ∀ (p : Ports) (s : State),
    exec (.muxSel false false p) s = exec (.encData p.data) s ∧
    exec (.muxSel false true p) s = exec (.encData p.data) s ∧
    exec (.muxSel true false p) s = exec (.encFrame p.frame) s ∧
    exec (.muxSel true true p) s = exec .encFramek s ∧
    (∀ (selFrame frameFixed : Bool) (t : State) (w : Word),
      exec (.muxSel selFrame frameFixed p) s = .next t → t.result = .word w → t.word = w ∧ w.getLsbD 47 = true)

/-- R122, R124: with the selected operands legal MUX.SEL produces a word whose bit 47 is 1, and which is of kind
FRAME exactly when `op_sel_frame = 1`. -/
def Obligations.MuxSelProducesAWordOfTheSelectedKind : Prop :=
  ∀ (selFrame frameFixed : Bool) (p : Ports) (s : State), SelectedLegal selFrame frameFixed p →
    ∃ t w, exec (.muxSel selFrame frameFixed p) s = .next t ∧ ProducedWord w t ∧ OnlyOutcome s t ∧
      w.getLsbD 47 = true ∧ (kindOfWord w = .frame ↔ selFrame = true)

/-- R116: a layout is proper exactly when every field has a width, its constant or its range fits the width, the lanes
are disjoint and their union is bits 0..47; the two tables are proper and are those of the rule; and every predicate
on the values of a range `0 .. hi` is the `cond` of some descriptor. -/
def Obligations.LayoutsAreThoseOfTheRule : Prop :=
  (∀ l : Layout, properLayout l = true ↔
    (∀ f ∈ l, 1 ≤ f.width ∧ (∀ c, f.kind = .const c → c < 2 ^ f.width) ∧
      ∀ lo hi, f.kind = .input lo hi → lo ≤ hi ∧ hi < 2 ^ f.width) ∧
    (l.Pairwise fun f g => ∀ i : Nat, ¬ (f.offset ≤ i ∧ i < f.offset + f.width ∧ g.offset ≤ i ∧ i < g.offset + g.width)) ∧
    ∀ i : Nat, i < 48 ↔ ∃ f ∈ l, f.offset ≤ i ∧ i < f.offset + f.width) ∧
  properLayout dataLayout = true ∧ properLayout frameLayout = true ∧
  (dataLayout.map fun f => (f.name, f.offset, f.width, f.kind, f.cond)) =
    [(.dataSelector, 47, 1, .const 1, .always), (.address, 40, 7, .input 0 89, .always),
     (.addressArbiter, 35, 5, .input 1 16, .oneBit), (.addressPileup, 30, 5, .input 0 16, .atMostOneBit),
     (.leadingCoarseTimeSelector, 29, 1, .const 0, .always), (.leadingCoarseTime, 17, 12, .input 0 4095, .always),
     (.leadingFineTime, 12, 5, .input 0 31, .always), (.trailingCoarseTimeSelector, 11, 1, .const 0, .always),
     (.trailingCoarseTime, 5, 6, .input 0 63, .always), (.trailingFineTime, 0, 5, .input 0 31, .always)] ∧
  (frameLayout.map fun f => (f.name, f.offset, f.width, f.kind, f.cond)) =
    [(.frameSelector, 45, 3, .const 7, .always), (.gap, 43, 2, .const 0, .always),
     (.qchipCollisionCount, 37, 6, .input 0 63, .always), (.hitCounter, 28, 9, .input 0 511, .always),
     (.frameCounter, 0, 28, .input 0 268435455, .always)] ∧
  (∀ v : Nat, v < 2 ^ 48 → (condHolds .oneBit v = true ↔ ∃ p : Nat, v = 2 ^ p) ∧
    (condHolds .atMostOneBit v = true ↔ v = 0 ∨ ∃ p : Nat, v = 2 ^ p)) ∧
  (∀ (predicate : Nat → Bool) (hi : Nat), ∃ c : FieldCond, ∀ v ≤ hi, condHolds c v = predicate v)

/-- R117, R119, R190: PACK on a proper layout with a value for every input field. The first input field, in the
layout's order, whose value is below `lo`, above `hi` or against its extra predicate (exactly one bit, at most one bit,
or a list of accepted values) is the fault; else the word is the sum of the placed values. Nothing but the outcome
changes. That the layout's order is the order of its list, also for a layout not listed top of word first, is the
model's reading, log 30 (DEDUCED); that PACK takes layouts whose words R60 and D9 say no operation produces, or
which R105 leaves out of the frame words that any operation can produce, is the model's choice, log 32 (DESIGN CHOICE), and so is a RangeViolation that names a field R181
keeps to other faults, with that field's number, log 33 (DESIGN CHOICE). -/
def Obligations.PackFollowsItsChecks : Prop :=
  ∀ (l : Layout) (vals : FieldValues) (s : State), properLayout l = true → Supplied l vals →
    (∀ n : FieldName, firstFailure (packChecks l vals) = some n →
      ∃ t, exec (.pack l vals) s = .next t ∧ Faulted .rangeViolation n 1#3 t ∧ OnlyOutcome s t) ∧
    (firstFailure (packChecks l vals) = none →
      ∃ t w, exec (.pack l vals) s = .next t ∧ ProducedWord w t ∧ OnlyOutcome s t ∧
        w.toNat = (l.map fun f => operandOf vals f * 2 ^ f.offset).sum)

/-- R119 (c): in a word PACK returns, each lane depends on its own field alone. -/
def Obligations.PackLanesNeverInteract : Prop :=
  ∀ (l : Layout) (vals vals' : FieldValues) (w w' : Word) (f : Field), properLayout l = true →
    pack l vals = .ok w → pack l vals' = .ok w' → f ∈ l → operandOf vals f = operandOf vals' f →
    ∀ i : Nat, f.offset ≤ i → i < f.offset + f.width → w.getLsbD i = w'.getLsbD i

/-- R118: UNPACK returns every field off its lane, in table order, for every word. -/
def Obligations.UnpackReadsEveryLane : Prop :=
  ∀ (l : Layout) (w : Word) (s : State), properLayout l = true →
    ∃ t, exec (.unpack l w) s = .next t ∧ OnlyOutcome s t ∧
      Succeeded (.fields (l.map fun f => (f.name, w.toNat / 2 ^ f.offset % 2 ^ f.width))) t

/-- R125: UNPACK gives back what PACK placed; OR-ing the values UNPACK returns, each on its field's lane, gives back
the word, so no bit is lost or invented; PACK is injective. -/
def Obligations.PackUnpackLaws : Prop :=
  ∀ l : Layout, properLayout l = true →
    (∀ (vals : FieldValues) (w : Word), Supplied l vals → pack l vals = .ok w →
      unpack l w = placedValues l vals) ∧
    (∀ w : Word, (unpack l w).map (·.1) = l.map (·.name) ∧
      (l.zip (unpack l w)).foldl (fun acc p => acc ||| p.2.2 <<< p.1.offset) 0 = w.toNat) ∧
    (∀ (vals vals' : FieldValues) (w : Word), Supplied l vals → Supplied l vals' →
      pack l vals = .ok w → pack l vals' = .ok w → placedValues l vals = placedValues l vals')

/-- R81, R82, R101, R102, R117, R190: for every operand tuple, faults included, ENC.DATA is PACK of DATA_LAYOUT with
`2^position` for the masks, and ENC.FRAME is PACK of FRAME_LAYOUT. -/
def Obligations.EncodersArePackOfTheirLayouts : Prop :=
  (∀ d : DataTuple, encData d = pack dataLayout (dataPackValues d)) ∧
  (∀ f : FrameTriple, encFrame f = pack frameLayout (framePackValues f))

/-- R124: CLASSIFY looks at bits 47..45 alone and never faults; of a word that MUX.SEL returns it says FRAME exactly
when `op_sel_frame = 1`. That ENC's ports show the outcome of an operation of DEC (R7) is log 5 (DEDUCED). -/
def Obligations.ClassifyReadsTheMarkerBits : Prop :=
  (∀ (w : Word) (s : State), ∃ t, exec (.classify w) s = .next t ∧ OnlyOutcome s t ∧
    Succeeded (.kind (if w.getLsbD 47 && w.getLsbD 46 && w.getLsbD 45 then .frame
      else if w.getLsbD 47 then .data else .none)) t) ∧
  (∀ (selFrame frameFixed : Bool) (p : Ports) (w : Word), muxSel selFrame frameFixed p = .ok w →
    (kindOfWord w = .frame ↔ selFrame = true))

/-! ### RENDER.HEX -/

/-- R135, R138: below `2^48` the token has 12 characters, character `k` the lowercase hexadecimal digit of bits
`47 - 4k` to `44 - 4k`, and reads back as the value; from `2^48` on the outcome is RenderOverflow and no text.
Nothing but the outcome changes. That ENC's ports show the outcome of an operation of REN is log 5 (DEDUCED). -/
def Obligations.RenderHexFollowsItsRule : Prop :=
  ∀ (v : Nat) (s : State),
    (v < 2 ^ 48 → ∃ t tok, exec (.renderHex v) s = .next t ∧ Succeeded (.text tok) t ∧ OnlyOutcome s t ∧
      tok.length = 12 ∧ tokenValue tok = v ∧
      ∀ k < 12, tok[k]? = ['0', '1', '2', '3', '4', '5', '6', '7', '8', '9', 'a', 'b', 'c', 'd', 'e', 'f'][
        v / 2 ^ (44 - 4 * k) % 16]?) ∧
    (2 ^ 48 ≤ v → ∃ t, exec (.renderHex v) s = .next t ∧ Faulted .renderOverflow .none 2#3 t ∧ OnlyOutcome s t)

/-! ### SAMPLE -/

/-- R153, R154: SAMPLE never faults, returns a well-formed data word with its token, and consumes seven or eight
draws; only the random source and the outcome change. That ENC's ports show the outcome of an operation of SRC is
log 5 (DEDUCED). -/
def Obligations.SampleNeverFaults : Prop :=
  ∀ s : State, ∃ t w, exec .sample s = .next t ∧ Succeeded (.token w (hexToken w.toNat)) t ∧ t.word = w ∧
    wfData w = true ∧ OnlyOutcome { s with src := t.src } t ∧
    (t.src.draws = s.src.draws + 7 ∨ t.src.draws = s.src.draws + 8)

/-- R152: seven scripted draws with the trigger not 0, eight with the trigger 0, fill the fields in the order of the
rule, and the rest of the script is untouched. That ENC's ports show the outcome of an operation of SRC is log 5
(DEDUCED). -/
def Obligations.SampleConsumesDrawsInOrder : Prop :=
  ∀ (s : State) (d : DataTuple) (trigger : Nat) (rest : List Nat), DataLegal d → trigger ≤ 332 →
    (trigger = 0 ↔ d.pileup.isSome = true) →
    s.src.script = d.address :: d.arbPos :: trigger :: (d.pileup.toList ++
      d.leadCoarse :: d.leadFine :: d.trailCoarse :: d.trailFine :: rest) →
    ∃ t w, exec .sample s = .next t ∧ encData d = .ok w ∧ Succeeded (.token w (hexToken w.toNat)) t ∧
      t.src.script = rest ∧ t.src.draws = s.src.draws + (if trigger = 0 then 8 else 7)

/-- R154: every well-formed data word is sampled under some answers of the source, and nothing else is sampled. -/
def Obligations.SampleReachesExactlyTheDataWords : Prop :=
  (∀ (s : State) (w : Word), wfData w = true →
    ∃ script t, exec .sample { s with src := { s.src with script := script } } = .next t ∧
      t.result = .token w (hexToken w.toNat)) ∧
  (∀ (s t : State), exec .sample s = .next t → ∃ w, wfData w = true ∧ t.result = .token w (hexToken w.toNat))

/-! ### SEQ, GEN.CHUNK and GEN.OUTPUT -/

/-- R164: the data-word step, when the sink accepts the write. That the token and its space are one write, which one
answer of the sink accepts, is log 16 (DEDUCED). -/
def Obligations.DataStepEmitsOneSampledWord : Prop :=
  ∀ (s : State) (rest : List Bool), s.inbox = [] → s.phase = .run → s.fr = none → s.widx < s.cfg.n →
    s.sink.answers = true :: rest →
    ∃ t w, step s = .next t ∧ wfData w = true ∧ encData (sampleFields s.src).1 = .ok w ∧
      t.out = ⟨s.out.closed, s.out.openChunk ++ [w]⟩ ∧ t.widx = s.widx + 1 ∧ t.cidx = s.cidx ∧ t.phase = .run ∧
      t.fr = none ∧ t.cfg = s.cfg ∧ t.src = (sampleFields s.src).2 ∧
      t.sink.text = s.sink.text ++ hexToken w.toNat ++ [' '] ∧ t.sink.answers = rest ∧ t.inbox = []

/-- R165, R163: the frame-word step when the sink accepts the write. In FIXED mode the word is the sentinel; in
GENERAL mode, with a legal triple from the host for the chunk, it is ENC.FRAME of that triple. That the token and
LINE_BREAK are one write, which one answer of the sink accepts, is log 16 (DEDUCED). A triple the host has not given
(log 14) is no case of this statement. -/
def Obligations.FrameStepClosesTheChunk : Prop :=
  ∀ (s : State) (rest : List Bool), s.inbox = [] → s.phase = .run → s.fr = none → s.widx = s.cfg.n →
    s.sink.answers = true :: rest →
    (s.cfg.mode = .general → ∃ f, s.cfg.frames[s.cidx]? = some f ∧ FrameLegal f) →
    ∃ t w, step s = .next t ∧
      (s.cfg.mode = .fixed → w = 0xe8005000eb00#48) ∧
      (s.cfg.mode = .general → ∃ f, s.cfg.frames[s.cidx]? = some f ∧ w.toNat = frameSum f) ∧
      t.out = ⟨s.out.closed ++ [s.out.openChunk ++ [w]], []⟩ ∧ t.widx = 0 ∧ t.cidx = s.cidx + 1 ∧
      t.phase = (if s.cidx + 1 = s.cfg.c then .done else .run) ∧ t.fr = none ∧ t.cfg = s.cfg ∧ t.src = s.src ∧
      t.sink.text = s.sink.text ++ hexToken w.toNat ++ s.cfg.lineBreak ∧ t.sink.answers = rest ∧ t.inbox = []

/-- R170, R163: in GENERAL mode a host triple out of range stops the run; nothing is emitted or written, the
counters stay, and FR names the field and ENC.FRAME (P4; log 17). That ENC's ports show the fault is log 5. -/
def Obligations.BadHostTripleFaultsTheRun : Prop :=
  ∀ (s : State) (f : FrameTriple) (n : FieldName), s.inbox = [] → s.phase = .run → s.fr = none →
    s.widx = s.cfg.n → s.cfg.mode = .general → s.cfg.frames[s.cidx]? = some f →
    firstFailure (frameChecks f) = some n →
    ∃ t, step s = .next t ∧ t.phase = .faulted ∧ t.fr = some ⟨.rangeViolation, n, .encFrame⟩ ∧
      Faulted .rangeViolation n 1#3 t ∧ t.out = s.out ∧ t.widx = s.widx ∧ t.cidx = s.cidx ∧ t.cfg = s.cfg ∧
      t.src = s.src ∧ t.sink = s.sink ∧ t.inbox = []

/-- R169, R170: a refused write stops the run with SinkFailure; OUT holds no word of the failing step, the counters
stay. The step runs the encoder first, so the premise asks for a frame word that can be encoded. That a token and
what follows it are one write is log 16, that ENC's ports show the fault log 5. -/
def Obligations.RefusedWriteFaultsTheRun : Prop :=
  ∀ (s : State) (rest : List Bool), s.inbox = [] → s.phase = .run → s.fr = none → s.sink.answers = false :: rest →
    (s.widx < s.cfg.n ∨ (s.widx = s.cfg.n ∧ (s.cfg.mode = .general → FrameLegal (chunkTriple s)))) →
    ∃ t, step s = .next t ∧ t.phase = .faulted ∧ (∃ op, t.fr = some ⟨.sinkFailure, .none, op⟩) ∧
      Faulted .sinkFailure .none 3#3 t ∧ t.out = s.out ∧ t.widx = s.widx ∧ t.cidx = s.cidx ∧ t.cfg = s.cfg ∧
      t.inbox = []

/-- R166, R187: the start event checks C, then N; it draws and emits nothing. The operation `start` in FR is P5 of
95_test_vectors.md and log 17 (DESIGN CHOICE); that ENC's ports show the fault is log 5 (DEDUCED). -/
def Obligations.StartChecksPositivity : Prop :=
  ∀ (s : State) (rest : List HostEvent), s.inbox = .start :: rest → s.phase = .idle → s.fr = none →
    ∃ t, step s = .next t ∧ t.out = s.out ∧ t.src = s.src ∧ t.sink = s.sink ∧ t.cfg = s.cfg ∧ t.inbox = rest ∧
      (s.cfg.c = 0 → t.phase = .faulted ∧ t.fr = some ⟨.configInvalid, .numChunks, .start⟩ ∧
        Faulted .configInvalid .numChunks 4#3 t) ∧
      (s.cfg.c ≠ 0 → s.cfg.n = 0 → t.phase = .faulted ∧ t.fr = some ⟨.configInvalid, .numDataWords, .start⟩ ∧
        Faulted .configInvalid .numDataWords 4#3 t) ∧
      (s.cfg.c ≠ 0 → s.cfg.n ≠ 0 → t.phase = .run ∧ t.fr = none ∧ t.widx = 0 ∧ t.cidx = 0)

/-- R161, R162, R187: GEN.CHUNK and GEN.OUTPUT reject a count below 1, C before N, before any draw or word. That the
procedures record the fault as a run does is log 15; the operation named in FR is log 17; the ports are log 5. -/
def Obligations.ProceduresRejectEmptyCounts : Prop :=
  ∀ (s : State) (c n : Nat), s.phase = .idle → s.fr = none →
    (∃ t, exec (.genChunk 0) s = .next t ∧ Faulted .configInvalid .numDataWords 4#3 t ∧ t.phase = .faulted ∧
      t.fr = some ⟨.configInvalid, .numDataWords, .genChunk⟩ ∧ t.out = s.out ∧ t.src = s.src ∧ t.sink = s.sink) ∧
    (∃ t, exec (.genOutput 0 n) s = .next t ∧ Faulted .configInvalid .numChunks 4#3 t ∧ t.phase = .faulted ∧
      t.fr = some ⟨.configInvalid, .numChunks, .genOutput⟩ ∧ t.out = s.out ∧ t.src = s.src ∧ t.sink = s.sink) ∧
    (1 ≤ c → ∃ t, exec (.genOutput c 0) s = .next t ∧ Faulted .configInvalid .numDataWords 4#3 t ∧
      t.phase = .faulted ∧ t.fr = some ⟨.configInvalid, .numDataWords, .genOutput⟩ ∧ t.out = s.out ∧
      t.src = s.src ∧ t.sink = s.sink)

/-- R160, R161, R39: GEN.CHUNK appends one closed chunk of `n` data words and a frame word, and hands its line to an
accepting sink. That it is a run of one chunk from IDLE is log 15; that a token and what follows it are one write is
log 16; the ports are log 5. -/
def Obligations.GenChunkClosesOneChunk : Prop :=
  ∀ (s : State) (n : Nat), ReadyToRun s → 1 ≤ n → SinkAccepts (n + 1) s →
    (s.cfg.mode = .general → ∃ f, s.cfg.frames[0]? = some f ∧ FrameLegal f) →
    ∃ t ch, exec (.genChunk n) s = .next t ∧ t.out = ⟨[ch], []⟩ ∧ chunkWf n ch = true ∧
      (s.cfg.mode = .fixed → ch.getLast? = some 0xe8005000eb00#48) ∧
      Succeeded (.text (lineText s.cfg.lineBreak ch)) t ∧
      t.sink.text = s.sink.text ++ lineText s.cfg.lineBreak ch ∧ t.phase = .done ∧ t.cidx = 1 ∧ t.widx = 0 ∧
      t.fr = none ∧ s.src.draws + 7 * n ≤ t.src.draws ∧ t.src.draws ≤ s.src.draws + 8 * n ∧
      t.cfg = { s.cfg with c := 1, n := n } ∧ t.inbox = s.inbox

/-- R162, R168, R43: GEN.OUTPUT closes `c` chunks, each of `n` well-formed data words and a frame word, gives `c`
lines, and an accepting sink has received exactly Text(OUT). That it runs from IDLE is log 15; that a token and what
follows it are one write is log 16; the ports are log 5. -/
def Obligations.GenOutputWritesTheTextOfOut : Prop :=
  ∀ (s : State) (c n : Nat), ReadyToRun s → 1 ≤ c → 1 ≤ n → SinkAccepts (c * (n + 1)) s →
    (s.cfg.mode = .general → ∀ i < c, ∃ f, s.cfg.frames[i]? = some f ∧ FrameLegal f) →
    ∃ t, exec (.genOutput c n) s = .next t ∧ Finished t ∧ t.fr = none ∧ t.cidx = c ∧ t.widx = 0 ∧
      t.out.openChunk = [] ∧ t.out.closed.length = c ∧ (∀ ch ∈ t.out.closed, chunkWf n ch = true) ∧
      (s.cfg.mode = .fixed → ∀ ch ∈ t.out.closed, ch.getLast? = some 0xe8005000eb00#48) ∧
      Succeeded (.lines (t.out.closed.map (lineText s.cfg.lineBreak))) t ∧
      t.sink.text = s.sink.text ++ streamText s.cfg.lineBreak t.out.closed ∧
      s.src.draws + 7 * (c * n) ≤ t.src.draws ∧ t.src.draws ≤ s.src.draws + 8 * (c * n) ∧
      t.cfg = { s.cfg with c := c, n := n } ∧ t.inbox = s.inbox

/-- R161, R162, R164 to R166, R169, R170: from IDLE, for every sink and every triple, GEN.OUTPUT is the host's
configuration and start followed by `k` steps of SEQ, `k` at most `c * (n + 1)`, until DONE or FAULTED; a run that is
DONE has taken all of them, and gives the caller its lines. GEN.CHUNK is the same for one chunk, and gives its line.
That the procedures are such runs is log 15; that GEN.CHUNK too stops at a bad triple of GENERAL mode, against R161's
'never RangeViolation', is log 34 (DESIGN CHOICE). -/
def Obligations.GenOutputIsTheRunOfSeqSteps : Prop :=
  ∀ (s : State) (c n : Nat), s.phase = .idle → s.fr = none → s.inbox = [] → 1 ≤ c → 1 ≤ n →
    ∀ (i : Instr) (r : State → Result),
      (i = .genOutput c n ∧ r = fun u => .lines (u.out.closed.map (lineText s.cfg.lineBreak))) ∨
      (c = 1 ∧ i = .genChunk n ∧ r = fun u => .text (u.out.closed.map (lineText s.cfg.lineBreak)).flatten) →
      ∃ t u k, exec i s = .next t ∧ k ≤ c * (n + 1) ∧
        Host.Core.run Sys2Proof.core (2 + k)
          { s with inbox := [.configure { s.cfg with c := c, n := n }, .start] } = .next u ∧
        ((u.phase = .done ∧ k = c * (n + 1) ∧ t = { u with result := r u }) ∨ (u.phase = .faulted ∧ t = u))

/-- R162, R163, R169, R170, R184: from IDLE, for every sink and every triple, GEN.OUTPUT, and GEN.CHUNK for one chunk,
ends DONE, or FAULTED with a SinkFailure, or, in GENERAL mode alone, FAULTED with the RangeViolation of a counter.
That GEN.CHUNK can end in a RangeViolation follows R163, R170 and R184 against R161's 'never RangeViolation': log 34
(DESIGN CHOICE). The operation in FR is log 17, the run from IDLE log 15, the ports log 5. -/
def Obligations.GenProceduresEndDoneOrFaulted : Prop :=
  ∀ (s : State) (c n : Nat) (i : Instr), i = .genOutput c n ∨ (c = 1 ∧ i = .genChunk n) →
    s.phase = .idle → s.fr = none → 1 ≤ c → 1 ≤ n →
    ∃ t, exec i s = .next t ∧ t.cfg = { s.cfg with c := c, n := n } ∧ t.inbox = s.inbox ∧
      ((Finished t ∧ t.fr = none ∧ t.fault = false) ∨
       (t.phase = .faulted ∧ Faulted .sinkFailure .none 3#3 t ∧
         (t.fr = some ⟨.sinkFailure, .none, .dataStep⟩ ∨ t.fr = some ⟨.sinkFailure, .none, .frameStep⟩)) ∨
       (s.cfg.mode = .general ∧ t.phase = .faulted ∧
         ∃ f ∈ [.qchipCollisionCount, .hitCounter, .frameCounter], Faulted .rangeViolation f 1#3 t ∧
           t.fr = some ⟨.rangeViolation, f, .encFrame⟩))

/-- R162, R163, R169, R170, R184: where GEN.OUTPUT, and GEN.CHUNK for one chunk, stops from an empty OUT. When the sink
refuses write `j` after accepting those before, and every triple used up to then is legal, the outcome is SinkFailure
and OUT holds `j` words, in well-formed closed chunks and an open one of well-formed data words. When in GENERAL mode
chunk `x` is the first with a triple out of range, the outcome is the RangeViolation of its first bad counter, with `x`
well-formed chunks and `n` well-formed data words of chunk `x` emitted. That GEN.CHUNK can end in a RangeViolation
follows R163, R170 and R184 against R161's 'never RangeViolation': log 34 (DESIGN CHOICE). That one write is one word
with what follows it is log 16, the operation in FR log 17, the run from IDLE log 15, the ports log 5. -/
def Obligations.GenProceduresStopWhereTheyFault : Prop :=
  ∀ (s : State) (c n : Nat) (i : Instr), i = .genOutput c n ∨ (c = 1 ∧ i = .genChunk n) →
    ReadyToRun s → 1 ≤ c → 1 ≤ n →
    (∀ (j : Nat) (rest : List Bool), s.sink.answers = List.replicate j true ++ false :: rest → j < c * (n + 1) →
      (s.cfg.mode = .general → ∀ y, y * (n + 1) + n ≤ j → ∃ f, s.cfg.frames[y]? = some f ∧ FrameLegal f) →
      ∃ t, exec i s = .next t ∧ t.phase = .faulted ∧ Faulted .sinkFailure .none 3#3 t ∧
        (∃ op, t.fr = some ⟨.sinkFailure, .none, op⟩) ∧ t.cidx = j / (n + 1) ∧ t.widx = j % (n + 1) ∧
        t.out.closed.length = j / (n + 1) ∧ t.out.openChunk.length = j % (n + 1) ∧
        (∀ ch ∈ t.out.closed, chunkWf n ch = true) ∧ (∀ w ∈ t.out.openChunk, wfData w = true) ∧
        t.sink.answers = rest) ∧
    (∀ (x : Nat) (f : FrameTriple) (nm : FieldName), s.cfg.mode = .general → x < c → s.cfg.frames[x]? = some f →
      firstFailure (frameChecks f) = some nm →
      (∀ y < x, ∃ g, s.cfg.frames[y]? = some g ∧ FrameLegal g) → SinkAccepts (x * (n + 1) + n) s →
      ∃ t, exec i s = .next t ∧ t.phase = .faulted ∧ Faulted .rangeViolation nm 1#3 t ∧
        t.fr = some ⟨.rangeViolation, nm, .encFrame⟩ ∧ t.cidx = x ∧ t.widx = n ∧ t.out.closed.length = x ∧
        t.out.openChunk.length = n ∧ (∀ ch ∈ t.out.closed, chunkWf n ch = true) ∧
        (∀ w ∈ t.out.openChunk, wfData w = true) ∧ t.sink.answers = s.sink.answers.drop (x * (n + 1) + n))

/-- R43: a line of a chunk of `n + 1` words: the token of word `i` stands at `13 * i`, one space stands between each
two tokens and there is no other, so LINE_BREAK starts after `13 * n + 12` characters, and it ends the line. -/
def Obligations.LineLengthOfAChunk : Prop :=
  ∀ (n : Nat) (ch : List Word) (lineBreak : Text), ch.length = n + 1 →
    (lineText lineBreak ch).length = 13 * n + 12 + lineBreak.length ∧
    (∀ (i : Nat) (w : Word), ch[i]? = some w →
      ((lineText lineBreak ch).drop (13 * i)).take 12 = hexToken w.toNat) ∧
    (∀ i < n, (lineText lineBreak ch)[13 * i + 12]? = some ' ') ∧
    (((lineText lineBreak ch).take (13 * n + 12)).filter (· == ' ')).length = n ∧
    (lineText lineBreak ch).take (13 * n + 12) = joinTokens ch ∧
    (lineText lineBreak ch).drop (13 * n + 12) = lineBreak

/-- R168: in OUT the words of kind FRAME are exactly the last words of closed chunks. -/
def Obligations.FrameKindMarksChunkEnds : Prop :=
  ∀ (n : Nat) (ch : List Word) (i : Nat) (w : Word), chunkWf n ch = true → ch[i]? = some w →
    (kindOfWord w = .frame ↔ i = n)

/-! ### The whole machine -/

/-- R23: the state right after reset, in what the rule gives. -/
def Obligations.ResetLeavesTheStatedValues : Prop :=
  State.reset.fault = false ∧ State.reset.widx = 0 ∧ State.reset.cidx = 0 ∧ State.reset.phase = .idle ∧
  State.reset.fr = none ∧ State.reset.out = OutStream.empty ∧ State.reset.cfg.n = 254 ∧
  State.reset.cfg.mode = .fixed

/-- R211: the reset event, in every state: SEQ, FR and OUT are cleared; the configuration, the random source and the
sink are not touched. -/
def Obligations.ResetEventClearsSeqOnly : Prop :=
  ∀ (s : State) (rest : List HostEvent), s.inbox = .reset :: rest →
    ∃ t, step s = .next t ∧ t.widx = 0 ∧ t.cidx = 0 ∧ t.phase = .idle ∧ t.fr = none ∧ t.out = OutStream.empty ∧
      t.fault = false ∧ t.cfg = s.cfg ∧ t.src = s.src ∧ t.sink = s.sink ∧ t.inbox = rest

/-- R22: the invariants hold right after reset. -/
def Obligations.RunInvariantsHoldAtReset : Prop := RunInv State.reset

/-- R22: every step keeps the invariants. -/
def Obligations.EveryStepKeepsTheRunInvariants : Prop :=
  ∀ s t : State, RunInv s → step s = .next t → RunInv t

/-- R18: OUT is append-only: but for reset, no step changes or removes a word or a closed chunk. -/
def Obligations.OutIsAppendOnly : Prop :=
  ∀ s t : State, s.inbox.head? ≠ some .reset → step s = .next t →
    emitted s.out <+: emitted t.out ∧ s.out.closed <+: t.out.closed

/-- R15, R193, R194: once FR is set, no step but reset changes it, and nothing is emitted. -/
def Obligations.FaultRecordIsSticky : Prop :=
  ∀ (s t : State) (r : FaultRecord), s.fr = some r → s.inbox.head? ≠ some .reset → step s = .next t →
    t.fr = some r ∧ t.out = s.out

/-- R16, R196: after a run has started no step changes the configuration. -/
def Obligations.ConfigurationIsFixedAfterStart : Prop :=
  ∀ s t : State, s.phase ≠ .idle → step s = .next t → t.cfg = s.cfg

/-- R213: a run in progress reaches DONE or FAULTED within the words it still has to emit. -/
def Obligations.EveryRunEnds : Prop :=
  ∀ s : State, RunInv s → s.phase = .run → s.inbox = [] →
    ∃ k t, k + s.widx ≤ (s.cfg.c - s.cidx) * (s.cfg.n + 1) ∧ Host.Core.run Sys2Proof.core k s = .next t ∧
      (t.phase = .done ∨ t.phase = .faulted)

/-- R14, R193, R213 and U12: with nothing presented, SEQ has no step in IDLE, DONE and FAULTED (log 21), and a start,
GEN.CHUNK or GEN.OUTPUT outside IDLE, during a run too, is stuck (R217; log 13). -/
def Obligations.NoStepOutsideARun : Prop :=
  ∀ s : State,
    (RunInv s → s.phase ≠ .run → step { s with inbox := [] } =
      .fault (match s.phase with
        | .idle => .stuckIdle
        | .done => .stuckDone
        | _ => .stuckFaulted)) ∧
    (∀ (c n : Nat) (rest : List HostEvent), s.phase ≠ .idle →
      step { s with inbox := .start :: rest } = .fault .startWithoutReset ∧
      exec (.genChunk n) s = .fault .startWithoutReset ∧ exec (.genOutput c n) s = .fault .startWithoutReset)

/-- R10, R37, R214: a pure operation gives the same outcome in every state and changes nothing but the outcome. That
ENC's ports show the outcome of every such operation, those of DEC and REN included, is log 5 (DEDUCED). -/
def Obligations.PureOperationsDependOnOperandsAlone : Prop :=
  ∀ (i : Instr) (s s' t : State), pureOp i = true → exec i s = .next t →
    OnlyOutcome s t ∧ ∃ t', exec i s' = .next t' ∧ t'.result = t.result ∧ t'.fault = t.fault ∧
      t'.faultCause = t.faultCause ∧ t'.faultField = t.faultField ∧ (t.fault = false → ∀ w, t.result = .word w → t'.word = t.word)

/-- R191, R181: after any operation the port `fault` is 1 exactly when the outcome is a fault, and then the code ports
carry the numbers that the tables of R181 give its cause and its field; else they are 0. That the ports show every
agent's outcome is log 5. Of the number of a field that R181 does not hold (log 31) only this is claimed: it is none
of 19..31, which R181 never produces. That a name keeps its number beside a cause R181 does not list with it, which
only PACK of a layout with such a name can show, is log 33 (DESIGN CHOICE). -/
def Obligations.FaultPortsCarryTheOutcome : Prop :=
  ∀ (i : Instr) (s t : State), exec i s = .next t →
    (∃ c f, t.result = .fault c f ∧ t.fault = true ∧ (c, t.faultCause) ∈ causeNumbers ∧
      FieldPort f t.faultField ∧ t.faultField.toNat ≤ 18) ∨
    ((∀ c f, t.result ≠ .fault c f) ∧ t.fault = false ∧ t.faultCause = 0#3 ∧ t.faultField = 0#5)

/-- R217, R212, R196: before a run the host sets the configuration and supplies the source and the sink, and nothing
else changes. That the configuration is set only in IDLE, that a supplied sink is empty, and that a change
in a run is stuck, are log 10 and log 13. -/
def Obligations.HostPreparesARun : Prop :=
  ∀ (s : State) (rest : List HostEvent) (cfg : RunConfig) (script : List Nat) (answers : List Bool),
    (s.inbox = .configure cfg :: rest → step s =
      if s.phase = .idle then .next { s with inbox := rest, cfg := cfg } else .fault .configureAfterStart) ∧
    (s.inbox = .supplySource script :: rest → step s =
      if s.phase = .run then .fault .supplyDuringRun
      else .next { s with inbox := rest, src := ⟨script, s.src.draws⟩ }) ∧
    (s.inbox = .supplySink answers :: rest → step s =
      if s.phase = .run then .fault .supplyDuringRun
      else .next { s with inbox := rest, sink := ⟨[], answers, s.sink.writes⟩ })

/-- R217, R164, R165 and log 21: with `letRun` the host's oldest event, whatever other events are pending, the step is
the step SEQ takes with nothing presented, and the later events stay; where SEQ has none, the event is taken and
nothing else changes. -/
def Obligations.LetRunTakesTheStepOfSeq : Prop :=
  ∀ (s : State) (rest : List HostEvent), s.inbox = .letRun :: rest →
    (∀ t : State, step { s with inbox := [] } = .next t → step s = .next { t with inbox := rest }) ∧
    ((∀ t : State, step { s with inbox := [] } ≠ .next t) → step s = .next { s with inbox := rest })
end

