-- ==== Sys2Proof/Laws/Codec.lean ====
section
/-! SUPPORT. What the encoders compute as numbers, and what a word's slices are: the facts about shift-and-OR over
disjoint lanes (R55, R119) that every statement about a word goes through. -/

namespace Sys2Proof.Machine

/-- OR-ing in a term that stays below the lowest bit used so far is addition (R55, R119). -/
theorem or_eq_add_of_lane {x y : Nat} (k : Nat) (hy : y < 2 ^ k) (hx : 2 ^ k ∣ x) : x ||| y = x + y := by
  obtain ⟨q, rfl⟩ := hx
  exact (Nat.two_pow_add_eq_or_of_lt hy q).symm

/-- The one-hot expansion of a position 0..4 is below `2^5` (R56). -/
theorem onehot_lt {p : Nat} (h : p ≤ 4) : onehot p < 32 := by
  interval_cases p <;> decide

@[simp] theorem onehot_eq (p : Nat) : onehot p = 2 ^ p := by simp [onehot, Nat.shiftLeft_eq]

/-- The pileup mask is below `2^5` (R57). -/
theorem pileupMask_lt {o : Option Nat} (h : ∀ p ∈ o, p ≤ 4) : pileupMask o < 32 := by
  cases o with
  | none => decide
  | some p => exact onehot_lt (h p rfl)

theorem pileupMask_eq (o : Option Nat) : pileupMask o = o.elim 0 fun p => 2 ^ p := by
  cases o <;> simp [pileupMask]

/-- ENC.DATA's composition is the sum of R55 on legal operands. -/
theorem dataWordNat_eq_sum {t : DataTuple} (h : DataLegal t) : dataWordNat t = dataSum t := by
  obtain ⟨ha, hb, hp, hc, hl, ht, hf⟩ := h
  have hb' := onehot_lt hb
  have hp' := pileupMask_lt hp
  unfold dataWordNat dataSum
  rw [← pileupMask_eq, ← onehot_eq t.arbPos]
  simp only [Nat.shiftLeft_eq, Nat.zero_mul, Nat.or_zero, Nat.one_mul]
  generalize onehot t.arbPos = b at *
  generalize pileupMask t.pileup = p at *
  rw [or_eq_add_of_lane 47 (y := t.address * 2 ^ 40) (by omega) (by omega),
    or_eq_add_of_lane 40 (y := b * 2 ^ 35) (by omega) (by omega),
    or_eq_add_of_lane 35 (y := p * 2 ^ 30) (by omega) (by omega),
    or_eq_add_of_lane 30 (y := t.leadCoarse * 2 ^ 17) (by omega) (by omega),
    or_eq_add_of_lane 17 (y := t.leadFine * 2 ^ 12) (by omega) (by omega),
    or_eq_add_of_lane 12 (y := t.trailCoarse * 2 ^ 5) (by omega) (by omega),
    or_eq_add_of_lane 5 (by omega) (by omega)]

theorem dataSum_lt {t : DataTuple} (h : DataLegal t) : dataSum t < 2 ^ 48 := by
  obtain ⟨ha, hb, hp, hc, hl, ht, hf⟩ := h
  have hb' := onehot_lt hb
  have hp' := pileupMask_lt hp
  unfold dataSum
  rw [← pileupMask_eq, ← onehot_eq t.arbPos]
  omega

/-- ENC.FRAME's composition is the sum of R55 on legal operands. -/
theorem frameWordNat_eq_sum {t : FrameTriple} (h : FrameLegal t) : frameWordNat t = frameSum t := by
  obtain ⟨ha, hb, hc⟩ := h
  unfold frameWordNat frameSum
  simp only [Nat.shiftLeft_eq, Nat.zero_mul, Nat.or_zero]
  rw [or_eq_add_of_lane 45 (y := t.qchipCc * 2 ^ 37) (by omega) (by omega),
    or_eq_add_of_lane 37 (y := t.hitCnt * 2 ^ 28) (by omega) (by omega), or_eq_add_of_lane 28 (by omega) (by omega)]

theorem frameSum_lt {t : FrameTriple} (h : FrameLegal t) : frameSum t < 2 ^ 48 := by
  obtain ⟨ha, hb, hc⟩ := h
  unfold frameSum
  omega

/-- The first failing check is the head's, or the rest's. -/
theorem firstFailure_cons (n : FieldName) (b : Bool) (cs : List (FieldName × Bool)) :
    firstFailure ((n, b) :: cs) = if b = true then firstFailure cs else some n := by
  cases b <;> simp [firstFailure, List.find?]

@[simp] theorem firstFailure_nil : firstFailure [] = none := rfl

/-- No check of R81 fires exactly on legal operands. -/
theorem dataRangeFault_none_iff {t : DataTuple} : dataRangeFault t = none ↔ DataLegal t := by
  have hp : pileupLegal t.pileup = true ↔ ∀ p ∈ t.pileup, p ≤ 4 := by
    cases t.pileup <;> simp [pileupLegal]
  unfold dataRangeFault DataLegal
  rw [← hp]
  repeat' split
  all_goals simp_all

/-- The checks of R81 fire in the order of the table. -/
theorem dataRangeFault_eq_first (t : DataTuple) : dataRangeFault t = firstFailure (dataChecks t) := by
  have hp : decide (∀ p ∈ t.pileup, p ≤ 4) = pileupLegal t.pileup := by
    cases t.pileup <;> simp [pileupLegal]
  unfold dataRangeFault firstFailure dataChecks
  rw [hp]
  repeat' split
  all_goals simp_all [List.find?, Nat.not_le.mpr, Nat.not_lt.mp]

/-- No check of R101 fires exactly on legal counters. -/
theorem frameRangeFault_none_iff {t : FrameTriple} : frameRangeFault t = none ↔ FrameLegal t := by
  unfold frameRangeFault FrameLegal
  repeat' split
  all_goals simp_all

/-- The checks of R101 fire in the order of the table. -/
theorem frameRangeFault_eq_first (t : FrameTriple) : frameRangeFault t = firstFailure (frameChecks t) := by
  unfold frameRangeFault firstFailure frameChecks
  repeat' split
  all_goals simp_all [List.find?, Nat.not_le.mpr, Nat.not_lt.mp]

/-- What ENC.DATA answers on legal operands. -/
theorem encData_of_legal {t : DataTuple} (h : DataLegal t) : encData t = .ok (BitVec.ofNat 48 (dataSum t)) := by
  simp [encData, dataRangeFault_none_iff.mpr h, dataWordNat_eq_sum h]

/-- ENC.DATA answers a word on legal operands alone, and the word is the sum of R55. -/
theorem encData_ok_iff {t : DataTuple} {w : Word} : encData t = .ok w ↔ DataLegal t ∧ w.toNat = dataSum t := by
  by_cases h : DataLegal t
  · have hl := dataSum_lt h
    rw [encData_of_legal h, Except.ok.injEq]
    exact ⟨fun hw => ⟨h, by rw [← hw]; simpa using hl⟩, fun hw => by rw [← hw.2]; simp⟩
  · have : dataRangeFault t ≠ none := fun hn => h (dataRangeFault_none_iff.mp hn)
    obtain ⟨f, hf⟩ := Option.ne_none_iff_exists'.mp this
    simp only [encData, hf, h, false_and, reduceCtorEq]

/-- What ENC.FRAME answers on legal counters. -/
theorem encFrame_of_legal {t : FrameTriple} (h : FrameLegal t) :
    encFrame t = .ok (BitVec.ofNat 48 (frameSum t)) := by
  simp [encFrame, frameRangeFault_none_iff.mpr h, frameWordNat_eq_sum h]

/-- ENC.FRAME answers a word on legal counters alone, and the word is the sum of R55. -/
theorem encFrame_ok_iff {t : FrameTriple} {w : Word} : encFrame t = .ok w ↔ FrameLegal t ∧ w.toNat = frameSum t := by
  by_cases h : FrameLegal t
  · have hl := frameSum_lt h
    rw [encFrame_of_legal h, Except.ok.injEq]
    exact ⟨fun hw => ⟨h, by rw [← hw]; simpa using hl⟩, fun hw => by rw [← hw.2]; simp⟩
  · have : frameRangeFault t ≠ none := fun hn => h (frameRangeFault_none_iff.mp hn)
    obtain ⟨f, hf⟩ := Option.ne_none_iff_exists'.mp this
    simp only [encFrame, hf, h, false_and, reduceCtorEq]

/-- The set bits of a 5-bit mask: exactly one. -/
theorem popcount_eq_one_iff {m : Nat} (h : m < 32) : popcount m = 1 ↔ m ∈ [1, 2, 4, 8, 16] := by
  interval_cases m <;> decide

/-- The set bits of a 5-bit mask: at most one. -/
theorem popcount_le_one_iff {m : Nat} (h : m < 32) : popcount m ≤ 1 ↔ m ∈ [0, 1, 2, 4, 8, 16] := by
  interval_cases m <;> decide

/-- The position of a one-hot mask gives the mask back (R9). -/
theorem two_pow_maskPos {m : Nat} (h : m ∈ [1, 2, 4, 8, 16]) : 2 ^ maskPos m = m ∧ maskPos m ≤ 4 := by
  simp only [List.mem_cons, List.not_mem_nil, or_false] at h
  rcases h with rfl | rfl | rfl | rfl | rfl <;> decide

/-- The mask of a position gives the position back (R9). -/
theorem maskPos_two_pow {p : Nat} (h : p ≤ 4) : maskPos (2 ^ p) = p := by
  interval_cases p <;> decide

/-- The slices of R51's data word, on a value whose numbers are at hand. -/
theorem slice_def (v hi lo : Nat) : slice v hi lo = v / 2 ^ lo % 2 ^ (hi - lo + 1) := rfl

/-- DEC.DATA's reading of a well-formed word is legal and its placed sum is the word again (R89, R90). -/
theorem dataTupleOf_legal {v : Nat} (hv : v < 2 ^ 48) (h : wfDataNat v = true) :
    DataLegal (dataTupleOf v) ∧ dataSum (dataTupleOf v) = v := by
  simp only [wfDataNat, Bool.and_eq_true, decide_eq_true_eq] at h
  obtain ⟨⟨⟨⟨⟨h47, h29⟩, h11⟩, ha⟩, hb⟩, hp⟩ := h
  rw [popcount_eq_one_iff (by simp only [slice_def]; omega)] at hb
  rw [popcount_le_one_iff (by simp only [slice_def]; omega)] at hp
  obtain ⟨hb1, hb2⟩ := two_pow_maskPos hb
  have hpu : (∀ p ∈ (dataTupleOf v).pileup, p ≤ 4) ∧
      ((dataTupleOf v).pileup.elim 0 fun p => 2 ^ p) = slice v 34 30 := by
    unfold dataTupleOf
    by_cases h0 : slice v 34 30 = 0
    · simp [h0]
    · have := two_pow_maskPos (m := slice v 34 30) (by simpa [h0] using hp)
      simp [h0, this]
  refine ⟨⟨ha, hb2, hpu.1, ?_, ?_, ?_, ?_⟩, ?_⟩
  iterate 4 (simp only [dataTupleOf, slice_def]; omega)
  unfold dataSum
  rw [hpu.2]
  simp only [dataTupleOf, hb1]
  simp only [slice_def] at *
  omega

/-- The slices of the sum of R55 on legal operands are the operands again (R90). -/
theorem slices_of_dataSum {t : DataTuple} (h : DataLegal t) :
    slice (dataSum t) 47 47 = 1 ∧ slice (dataSum t) 46 40 = t.address ∧ slice (dataSum t) 39 35 = 2 ^ t.arbPos ∧
    slice (dataSum t) 34 30 = (t.pileup.elim 0 fun p => 2 ^ p) ∧ slice (dataSum t) 29 29 = 0 ∧
    slice (dataSum t) 28 17 = t.leadCoarse ∧ slice (dataSum t) 16 12 = t.leadFine ∧
    slice (dataSum t) 11 11 = 0 ∧ slice (dataSum t) 10 5 = t.trailCoarse ∧ slice (dataSum t) 4 0 = t.trailFine := by
  obtain ⟨ha, hb, hp, hc, hl, ht, hf⟩ := h
  have hb' := onehot_lt hb
  have hp' := pileupMask_lt hp
  unfold dataSum
  rw [← pileupMask_eq, ← onehot_eq t.arbPos]
  simp only [slice_def]
  refine ⟨?_, ?_, ?_, ?_, ?_, ?_, ?_, ?_, ?_, ?_⟩ <;> omega

/-- The masks of legal positions (R56, R57). -/
theorem masks_of_legal {t : DataTuple} (h : DataLegal t) :
    2 ^ t.arbPos ∈ [1, 2, 4, 8, 16] ∧ (t.pileup.elim 0 fun p => 2 ^ p) ∈ [0, 1, 2, 4, 8, 16] := by
  obtain ⟨-, hb, hp, -⟩ := h
  constructor
  · interval_cases t.arbPos <;> decide
  · cases hq : t.pileup with
    | none => decide
    | some p =>
      have := hp p (by simp [hq])
      interval_cases p <;> decide

/-- The sum of R55 on legal operands is a well-formed data word (R87 a). -/
theorem wfDataNat_dataSum {t : DataTuple} (h : DataLegal t) : wfDataNat (dataSum t) = true := by
  obtain ⟨h1, h2, h3, h4, h5, -, -, h8, -⟩ := slices_of_dataSum h
  obtain ⟨m1, m2⟩ := masks_of_legal h
  have b1 : 2 ^ t.arbPos < 32 := by have := onehot_lt h.2.1; simpa using this
  have b2 : (t.pileup.elim 0 fun p => 2 ^ p) < 32 := by
    have := pileupMask_lt h.2.2.1; rwa [pileupMask_eq] at this
  simp only [wfDataNat, h1, h2, h3, h4, h5, h8, Bool.and_eq_true, decide_eq_true_eq]
  exact ⟨⟨⟨⟨⟨trivial, trivial⟩, trivial⟩, h.1⟩, (popcount_eq_one_iff b1).mpr m1⟩, (popcount_le_one_iff b2).mpr m2⟩

/-- DEC.DATA reads the legal operands back off their sum (R90). -/
theorem dataTupleOf_dataSum {t : DataTuple} (h : DataLegal t) : dataTupleOf (dataSum t) = t := by
  obtain ⟨-, h2, h3, h4, -, h6, h7, -, h9, h10⟩ := slices_of_dataSum h
  have hp : (if slice (dataSum t) 34 30 = 0 then none else some (maskPos (slice (dataSum t) 34 30))) = t.pileup := by
    rw [h4]
    cases hq : t.pileup with
    | none => rfl
    | some p =>
      have := h.2.2.1 p (by simp [hq])
      simp [maskPos_two_pow this]
  unfold dataTupleOf
  rw [hp, h2, h3, h6, h7, h9, h10, maskPos_two_pow h.2.1]

/-- The sum of R55 is injective on legal operands (R87). -/
theorem dataSum_injective {t t' : DataTuple} (h : DataLegal t) (h' : DataLegal t') (he : dataSum t = dataSum t') :
    t = t' := by
  rw [← dataTupleOf_dataSum h, he, dataTupleOf_dataSum h']

/-- DEC.DATA faults on exactly the values that are not well-formed (R89). -/
theorem decDataFault_none_iff {v : Nat} : decDataFault v = none ↔ v < 2 ^ 48 ∧ wfDataNat v = true := by
  have hs : slice v 47 45 = 7 → slice v 46 40 > 89 := by simp only [slice_def]; omega
  unfold decDataFault wfDataNat
  simp only [Bool.and_eq_true, decide_eq_true_eq]
  repeat' split
  all_goals simp_all

/-- A word of kind DATA or FRAME by its marker bits (R58). -/
theorem kind_of_wfData {w : Word} (h : wfData w = true) : kindOfWord w = .data := by
  simp only [wfData, wfDataNat, Bool.and_eq_true, decide_eq_true_eq] at h
  have : slice w.toNat 47 45 ≠ 7 := by
    have := h.1.1.2
    simp only [slice_def] at *; omega
  simp [kindOfWord, this, h.1.1.1.1.1]

theorem kind_of_wfFrameOrK {w : Word} (h : wfFrameOrK w = true) : kindOfWord w = .frame := by
  have : slice w.toNat 47 45 = 7 := by
    simp only [wfFrameOrK, wfFrame, wfFrameNat, Bool.or_eq_true, Bool.and_eq_true, decide_eq_true_eq] at h
    rcases h with h | h
    · exact h.1
    · rw [h]; decide
  simp [kindOfWord, this]

/-- The slices of the sum of R55 on legal counters (R108). -/
theorem slices_of_frameSum {t : FrameTriple} (h : FrameLegal t) :
    slice (frameSum t) 47 45 = 7 ∧ slice (frameSum t) 44 43 = 0 ∧ slice (frameSum t) 42 37 = t.qchipCc ∧
    slice (frameSum t) 36 28 = t.hitCnt ∧ slice (frameSum t) 27 0 = t.frameCnt := by
  obtain ⟨ha, hb, hc⟩ := h
  simp only [frameSum, slice_def]
  refine ⟨?_, ?_, ?_, ?_, ?_⟩ <;> omega

/-- The sum of R55 on legal counters is a well-formed frame word (R106). -/
theorem wfFrameNat_frameSum {t : FrameTriple} (h : FrameLegal t) : wfFrameNat (frameSum t) = true := by
  obtain ⟨h1, h2, -⟩ := slices_of_frameSum h
  simp [wfFrameNat, h1, h2]

/-- DEC.FRAME reads the legal counters back off their sum (R108). -/
theorem frameTripleOf_frameSum {t : FrameTriple} (h : FrameLegal t) : frameTripleOf (frameSum t) = t := by
  obtain ⟨-, -, h3, h4, h5⟩ := slices_of_frameSum h
  simp [frameTripleOf, h3, h4, h5]

/-- DEC.FRAME's reading of a well-formed frame word is legal and its placed sum is the word again (R108). -/
theorem frameTripleOf_legal {v : Nat} (hv : v < 2 ^ 48) (h : wfFrameNat v = true) :
    FrameLegal (frameTripleOf v) ∧ frameSum (frameTripleOf v) = v := by
  simp only [wfFrameNat, Bool.and_eq_true, decide_eq_true_eq] at h
  simp only [slice_def] at h
  simp only [FrameLegal, frameTripleOf, frameSum, slice_def]
  omega

/-- A word that ENC.DATA returns is well-formed (R87 a). -/
theorem wfData_of_encData {t : DataTuple} {w : Word} (h : encData t = .ok w) : wfData w = true := by
  obtain ⟨hl, hw⟩ := encData_ok_iff.mp h
  simp [wfData, hw, wfDataNat_dataSum hl]

/-- A word that ENC.FRAME returns is well-formed (R106). -/
theorem wfFrame_of_encFrame {t : FrameTriple} {w : Word} (h : encFrame t = .ok w) : wfFrame w = true := by
  obtain ⟨hl, hw⟩ := encFrame_ok_iff.mp h
  simp [wfFrame, hw, wfFrameNat_frameSum hl]

/-- What DEC.DATA answers on a well-formed value (R89). -/
theorem decData_of_wf {v : Nat} (hv : v < 2 ^ 48) (h : wfDataNat v = true) : decData v = .ok (dataTupleOf v) := by
  unfold decData
  rw [decDataFault_none_iff.mpr ⟨hv, h⟩]

/-- What DEC.FRAME answers on a well-formed value (R107). -/
theorem decFrame_of_wf {v : Nat} (hv : v < 2 ^ 48) (h : wfFrameNat v = true) : decFrame v = .ok (frameTripleOf v, 0) := by
  simp only [wfFrameNat, Bool.and_eq_true, decide_eq_true_eq] at h
  have : decFrameFault v = none := by
    unfold decFrameFault
    rw [if_neg (by omega), if_neg (by omega), if_neg (by omega)]
  unfold decFrame
  rw [this, h.2]

/-- Three adjacent marker bits, read as bits or as a slice (R58). -/
theorem markers_eq_slice (v : Nat) :
    (v.testBit 47 && v.testBit 46 && v.testBit 45) = decide (slice v 47 45 = 7) := by
  simp only [Nat.testBit_eq_decide_div_mod_eq, ← Bool.decide_and]
  congr 1
  simp only [slice_def]
  exact propext (by omega)

/-- A bit, read as a bit or as a slice (R8). -/
theorem testBit_eq_slice (v i : Nat) : v.testBit i = decide (slice v i i = 1) := by
  rw [Nat.testBit_eq_decide_div_mod_eq]
  simp [slice_def]

theorem not_testBit_eq_slice (v i : Nat) : (!v.testBit i) = decide (slice v i i = 0) := by
  have : slice v i i = 0 ∨ slice v i i = 1 := by
    simp only [slice_def, Nat.sub_self, Nat.zero_add, Nat.pow_one]; omega
  rw [testBit_eq_slice]
  rcases this with h | h <;> simp [h]

/-- One test of a decoder and one check of a list agree when the check passes exactly if the test does not fire. -/
theorem test_eq_check {c : Prop} [Decidable c] {b : Bool} {n : FieldName} {r r' : Option FieldName}
    (h : b = true ↔ ¬c) (hr : r = r') : (if c then some n else r) = if b = true then r' else some n := by
  subst hr
  by_cases hc : c <;> simp [hc, h]

/-- The tests of DEC.DATA fail in the order of R89. -/
theorem decDataFault_eq_first (v : Nat) : decDataFault v = firstFailure (decDataChecks v) := by
  have b1 : slice v 39 35 < 32 := by simp only [slice_def]; omega
  have b2 : slice v 34 30 < 32 := by simp only [slice_def]; omega
  have e1 := popcount_eq_one_iff b1
  have e2 := popcount_le_one_iff b2
  unfold decDataFault decDataChecks
  simp only [firstFailure_cons, firstFailure_nil]
  refine test_eq_check (by simp only [decide_eq_true_eq]; omega) ?_
  refine test_eq_check (by simp [testBit_eq_slice]) ?_
  refine test_eq_check (by rw [markers_eq_slice]; simp) ?_
  refine test_eq_check (by rw [decide_eq_true_eq, not_lt]; exact Iff.rfl) ?_
  refine test_eq_check (by rw [List.contains_iff_mem, ne_eq, not_not, e1]; exact Iff.rfl) ?_
  refine test_eq_check (by rw [List.contains_iff_mem, not_lt, e2]; exact Iff.rfl) ?_
  refine test_eq_check (by rw [not_testBit_eq_slice]; simp) ?_
  exact test_eq_check (by rw [not_testBit_eq_slice]; simp) rfl

/-- The tests of DEC.FRAME fail in the order of R107. -/
theorem decFrameFault_eq_first (v : Nat) : decFrameFault v = firstFailure (decFrameChecks v) := by
  have hg : (!v.testBit 44 && !v.testBit 43) = decide (slice v 44 43 = 0) := by
    rw [not_testBit_eq_slice, not_testBit_eq_slice, ← Bool.decide_and]
    congr 1
    simp only [slice_def]
    exact propext (by omega)
  unfold decFrameFault decFrameChecks
  simp only [firstFailure_cons, firstFailure_nil]
  refine test_eq_check (by simp only [decide_eq_true_eq]; omega) ?_
  refine test_eq_check (by rw [markers_eq_slice]; simp) ?_
  exact test_eq_check (by
    rw [hg, Bool.or_eq_true, decide_eq_true_eq, beq_iff_eq, not_and_or, not_not, not_not]; exact Iff.rfl) rfl

end Sys2Proof.Machine
end

