-- ==== Sys2Proof/Laws/Layout.lean ====
section
/-! SUPPORT. Bits of slices, and PACK and UNPACK over a proper layout bit by bit (R116 to R119): each bit of the word
belongs to one field. -/

namespace Sys2Proof.Machine

/-- The bits of a slice are the bits of the value, moved down (R8). -/
theorem slice_testBit (v hi lo k : Nat) :
    (slice v hi lo).testBit k = (decide (k < hi - lo + 1) && v.testBit (lo + k)) := by
  rw [slice_def, Nat.testBit_mod_two_pow, Nat.testBit_div_two_pow, Nat.add_comm lo k]

/-- A bit inside a slice's range is a bit of the slice (R8). -/
theorem testBit_of_slice {v hi lo i : Nat} (h : lo ≤ i) (h' : i ≤ hi) :
    v.testBit i = (slice v hi lo).testBit (i - lo) := by
  have : lo + (i - lo) = i := by omega
  rw [slice_testBit, this]
  simp only [show i - lo < hi - lo + 1 by omega, decide_true, Bool.true_and]

/-- Bit `i` of what PACK has accumulated: from before, or from one of the fields (R117). -/
theorem packAcc_testBit (vals : FieldValues) (l : Layout) (acc i : Nat) :
    (packAcc vals l acc).testBit i =
      (acc.testBit i || l.any fun f => decide (f.offset ≤ i) && (fieldValue vals f).testBit (i - f.offset)) := by
  induction l generalizing acc with
  | nil => simp [packAcc]
  | cons f rest ih => simp [packAcc, ih, Nat.testBit_or, Nat.testBit_shiftLeft, Bool.or_assoc, ge_iff_le]

/-- No check of PACK fires exactly when every field is legal (R117). -/
theorem packRangeFault_none_iff {l : Layout} {vals : FieldValues} :
    packRangeFault l vals = none ↔ l.all (fieldLegal vals) = true := by
  induction l with
  | nil => simp [packRangeFault]
  | cons f rest ih =>
    by_cases h : fieldLegal vals f = true <;> simp [packRangeFault, h, ih]

/-- PACK answers a word exactly when every field is legal (R117). -/
theorem pack_ok_iff {l : Layout} {vals : FieldValues} {w : Word} :
    pack l vals = .ok w ↔ l.all (fieldLegal vals) = true ∧ BitVec.ofNat 48 (packAcc vals l 0) = w := by
  rw [← packRangeFault_none_iff]
  unfold pack
  cases packRangeFault l vals <;> simp

/-- What properness says of one field (R116). -/
theorem fieldProper_of_proper {l : Layout} (h : properLayout l = true) {f : Field} (hf : f ∈ l) :
    fieldProper f = true := by
  simp only [properLayout, Bool.and_eq_true, List.all_eq_true] at h
  exact h.1 f hf

theorem field_inside_word {l : Layout} (h : properLayout l = true) {f : Field} (hf : f ∈ l) :
    1 ≤ f.width ∧ f.offset + f.width ≤ 48 := by
  have := fieldProper_of_proper h hf
  simp only [fieldProper, Bool.and_eq_true, decide_eq_true_eq] at this
  exact this.1

/-- The value PACK finds under a name is the operand's first of that name (R117). -/
theorem valueOf_eq_lookup (vals : FieldValues) (n : FieldName) : valueOf vals n = vals.lookup n := by
  induction vals with
  | nil => rfl
  | cons p rest ih =>
    obtain ⟨m, v⟩ := p
    by_cases h : m = n
    · subst h; simp [valueOf]
    · rw [valueOf, if_neg h, ih, List.lookup_cons, beq_false_of_ne (Ne.symm h)]

/-- What PACK places is the constant or the operand (R117). -/
theorem fieldValue_eq_operandOf (vals : FieldValues) (f : Field) : fieldValue vals f = operandOf vals f := by
  unfold fieldValue operandOf
  cases f.kind <;> simp only [valueOf_eq_lookup]

/-- The operand holds what PACK asks for exactly when every input field has a value (R117). -/
theorem all_hasValue_iff {l : Layout} {vals : FieldValues} : l.all (hasValue vals) = true ↔ Supplied l vals := by
  simp only [List.all_eq_true, hasValue]
  refine forall₂_congr fun f _ => ?_
  cases hk : f.kind <;> simp [valueOf_eq_lookup]

/-- A mask below `2^k` has no bit set exactly when it is 0 (R9). -/
theorem popcountLow_eq_zero_iff {k m : Nat} (h : m < 2 ^ k) : popcountLow k m = 0 ↔ m = 0 := by
  induction k generalizing m with
  | zero => simp only [popcountLow, true_iff]; omega
  | succ k ih =>
    have := ih (m := m / 2) (by omega)
    simp only [popcountLow]
    omega

/-- A mask below `2^k` has one bit set exactly when it is a power of two (R9). -/
theorem popcountLow_eq_one_iff {k m : Nat} (h : m < 2 ^ k) : popcountLow k m = 1 ↔ ∃ p < k, m = 2 ^ p := by
  induction k generalizing m with
  | zero => simp [popcountLow]
  | succ k ih =>
    have h1 := ih (m := m / 2) (by omega)
    have h0 := popcountLow_eq_zero_iff (k := k) (m := m / 2) (by omega)
    simp only [popcountLow]
    constructor
    · intro hm
      rcases Nat.mod_two_eq_zero_or_one m with h2 | h2
      · obtain ⟨p, hp, he⟩ := h1.mp (by omega)
        exact ⟨p + 1, by omega, by rw [Nat.pow_succ]; omega⟩
      · exact ⟨0, by omega, by rw [Nat.pow_zero]; have := h0.mp (by omega); omega⟩
    · rintro ⟨p, hp, rfl⟩
      cases p with
      | zero => have := h0.mpr (by omega); omega
      | succ p =>
        rw [Nat.pow_succ] at h1 ⊢
        have := h1.mpr ⟨p, by omega, by omega⟩
        omega

theorem mem_oneHots {m : Nat} : m ∈ oneHots ↔ ∃ p < 48, m = 2 ^ p := by
  simp [oneHots, eq_comm]

/-- The extra predicate of a field, on the values of a lane (R116). -/
theorem condHolds_eq_condCheck {c : FieldCond} {v : Nat} (h : v < 2 ^ 48) : condHolds c v = condCheck c v := by
  have h0 : popcount v = 0 ↔ v = 0 := popcountLow_eq_zero_iff h
  have h1 : popcount v = 1 ↔ v ∈ oneHots := (popcountLow_eq_one_iff h).trans mem_oneHots.symm
  cases c with
  | always => rfl
  | oneBit =>
    rw [condHolds, condCheck, Bool.eq_iff_iff, beq_iff_eq, decide_eq_true_eq]
    exact h1
  | atMostOneBit =>
    rw [condHolds, condCheck, decide_eq_decide, ← h0, ← h1]
    omega
  | oneOf accepted => simp [condHolds, condCheck]

/-- PACK's check of a field of a proper layout is that of R117. -/
theorem fieldLegal_eq_operandCheck {l : Layout} (h : properLayout l = true) {f : Field} (hf : f ∈ l)
    (vals : FieldValues) : fieldLegal vals f = operandCheck vals f := by
  have hw := (field_inside_word h hf).2
  have hp := fieldProper_of_proper h hf
  unfold fieldProper at hp
  unfold fieldLegal operandCheck
  cases hk : f.kind with
  | const v => rfl
  | input lo hi =>
    simp only [hk, Bool.and_eq_true, decide_eq_true_eq, fieldValue_eq_operandOf] at hp ⊢
    by_cases hv : operandOf vals f ≤ hi
    · rw [condHolds_eq_condCheck (lt_of_lt_of_le (show operandOf vals f < 2 ^ f.width by omega)
        (Nat.pow_le_pow_right (by omega) (by omega)))]
    · simp [hv]

/-- The checks of PACK on a proper layout are those of R117, and fire in the order of the layout. -/
theorem packRangeFault_eq_first {l : Layout} (h : properLayout l = true) (vals : FieldValues) :
    packRangeFault l vals = firstFailure (packChecks l vals) := by
  have key : ∀ k : Layout, (∀ f ∈ k, f ∈ l) → packRangeFault k vals = firstFailure (packChecks k vals) := by
    intro k
    induction k with
    | nil => exact fun _ => rfl
    | cons f rest ih =>
      intro hk
      have : packChecks (f :: rest) vals = (f.name, operandCheck vals f) :: packChecks rest vals := rfl
      rw [this, firstFailure_cons, packRangeFault, ih fun g hg => hk g (List.mem_cons_of_mem f hg),
        fieldLegal_eq_operandCheck h (hk f List.mem_cons_self)]
  exact key l fun _ hf => hf

/-- A legal value stays inside its lane's width (R116, R119). -/
theorem fieldValue_lt {l : Layout} (h : properLayout l = true) {f : Field} (hf : f ∈ l) {vals : FieldValues}
    (hv : fieldLegal vals f = true) : fieldValue vals f < 2 ^ f.width := by
  have hp := fieldProper_of_proper h hf
  unfold fieldProper at hp
  unfold fieldLegal fieldValue at *
  cases hk : f.kind with
  | const v => simp_all
  | input lo hi =>
    simp only [hk, Bool.and_eq_true, decide_eq_true_eq] at hp hv ⊢
    omega

/-- The lane that covers a bit belongs to one field (R116, R119). -/
theorem lane_unique {l : Layout} (h : properLayout l = true) {i : Nat} (hi : i < 48) {f g : Field} (hf : f ∈ l)
    (hg : g ∈ l) (cf : laneCovers i f = true) (cg : laneCovers i g = true) : f = g := by
  simp only [properLayout, Bool.and_eq_true, List.all_eq_true, List.mem_range, beq_iff_eq] at h
  obtain ⟨x, hx⟩ := List.length_eq_one_iff.mp (h.2 i hi)
  have mf : f ∈ l.filter (laneCovers i) := List.mem_filter.mpr ⟨hf, cf⟩
  have mg : g ∈ l.filter (laneCovers i) := List.mem_filter.mpr ⟨hg, cg⟩
  simp only [hx, List.mem_singleton] at mf mg
  rw [mf, mg]

/-- Every bit of the word lies in some lane (R116). -/
theorem lane_exists {l : Layout} (h : properLayout l = true) {i : Nat} (hi : i < 48) :
    ∃ f ∈ l, laneCovers i f = true := by
  simp only [properLayout, Bool.and_eq_true, List.all_eq_true, List.mem_range, beq_iff_eq] at h
  obtain ⟨x, hx⟩ := List.length_eq_one_iff.mp (h.2 i hi)
  have : x ∈ l.filter (laneCovers i) := by simp [hx]
  exact ⟨x, (List.mem_filter.mp this).1, (List.mem_filter.mp this).2⟩

/-- A bit of PACK's word is the bit of the one field whose lane covers it (R119). -/
theorem packAcc_testBit_lane {l : Layout} (h : properLayout l = true) {vals : FieldValues}
    (hv : l.all (fieldLegal vals) = true) {i : Nat} (hi : i < 48) {f : Field} (hf : f ∈ l)
    (cf : laneCovers i f = true) : (packAcc vals l 0).testBit i = (fieldValue vals f).testBit (i - f.offset) := by
  rw [packAcc_testBit, Nat.zero_testBit, Bool.false_or]
  rw [List.all_eq_true] at hv
  cases hb : (fieldValue vals f).testBit (i - f.offset) with
  | true =>
    simp only [laneCovers, Bool.and_eq_true, decide_eq_true_eq] at cf
    rw [List.any_eq_true]
    exact ⟨f, hf, by simp [cf.1, hb]⟩
  | false =>
    rw [List.any_eq_false]
    intro g hg
    simp only [Bool.and_eq_true, decide_eq_true_eq, not_and, Bool.not_eq_true]
    intro hgi
    by_cases cg : laneCovers i g = true
    · rw [← lane_unique h hi hf hg cf cg]; exact hb
    · simp only [laneCovers, Bool.and_eq_true, decide_eq_true_eq, not_and, not_lt] at cg
      exact Nat.testBit_lt_two_pow (lt_of_lt_of_le (fieldValue_lt h hg (hv g hg))
        (Nat.pow_le_pow_right (by omega) (by have := cg hgi; omega)))

/-- PACK's word stays inside its 48 bits (R119). -/
theorem packAcc_lt {l : Layout} (h : properLayout l = true) {vals : FieldValues}
    (hv : l.all (fieldLegal vals) = true) : packAcc vals l 0 < 2 ^ 48 := by
  rw [List.all_eq_true] at hv
  apply Nat.lt_pow_two_of_testBit
  intro i hi
  rw [packAcc_testBit, Nat.zero_testBit, Bool.false_or, List.any_eq_false]
  intro g hg
  have := (field_inside_word h hg).2
  simp only [Bool.and_eq_true, decide_eq_true_eq, not_and, Bool.not_eq_true]
  intro hgi
  exact Nat.testBit_lt_two_pow (lt_of_lt_of_le (fieldValue_lt h hg (hv g hg))
    (Nat.pow_le_pow_right (by omega) (by omega)))

/-- OR of naturals with no set bit in common is their sum (R9, R119). -/
theorem or_eq_add_of_disjoint {x y : Nat} (h : ∀ i, x.testBit i = true → y.testBit i = false) :
    x ||| y = x + y := by
  induction x using Nat.strongRecOn generalizing y with
  | ind x ih =>
    by_cases hx : x = 0
    · simp [hx]
    · have h2 := ih (x / 2) (by omega) (y := y / 2) (fun i hi => by
        have := h (i + 1)
        simp only [Nat.testBit_succ] at this
        exact this hi)
      have h0 := h 0
      simp only [Nat.testBit_zero, decide_eq_true_eq, decide_eq_false_iff_not] at h0
      have hd : (x ||| y) / 2 = x / 2 ||| y / 2 := Nat.or_div_two
      have hm : (x ||| y) % 2 = 1 ↔ x % 2 = 1 ∨ y % 2 = 1 := Nat.or_mod_two_eq_one
      omega

/-- The lanes of a layout are pairwise disjoint when no bit lies in two of them. -/
theorem lanes_pairwise {l : Layout} (hin : ∀ f ∈ l, f.offset + f.width ≤ 48)
    (h : ∀ i < 48, (l.filter (laneCovers i)).length ≤ 1) :
    l.Pairwise fun f g => ∀ i, laneCovers i f = true → laneCovers i g = false := by
  induction l with
  | nil => exact List.Pairwise.nil
  | cons f rest ih =>
    refine List.Pairwise.cons ?_ (ih (fun g hg => hin g (List.mem_cons_of_mem f hg)) fun i hi => ?_)
    · intro g hg i cf
      by_contra cg
      have hi : i < 48 := by
        have := hin f List.mem_cons_self
        simp only [laneCovers, Bool.and_eq_true, decide_eq_true_eq] at cf
        omega
      have mg : g ∈ rest.filter (laneCovers i) := List.mem_filter.mpr ⟨hg, by simpa using cg⟩
      have := h i hi
      rw [List.filter_cons_of_pos cf, List.length_cons] at this
      have := List.length_pos_of_mem mg
      omega
    · refine le_trans ?_ (h i hi)
      rw [List.filter_cons]
      split <;> simp

/-- PACK's OR is the sum of the placed values (R55, R119 a). -/
theorem packAcc_eq_sum {vals : FieldValues} {l : Layout} {acc : Nat}
    (hd : l.Pairwise fun f g => ∀ i, laneCovers i f = true → laneCovers i g = false)
    (hv : ∀ f ∈ l, fieldValue vals f < 2 ^ f.width)
    (ha : ∀ i, acc.testBit i = true → ∀ f ∈ l, laneCovers i f = false) :
    packAcc vals l acc = acc + (l.map fun f => fieldValue vals f * 2 ^ f.offset).sum := by
  induction l generalizing acc with
  | nil => simp [packAcc]
  | cons f rest ih =>
    have bits : ∀ i, (fieldValue vals f <<< f.offset).testBit i = true → laneCovers i f = true := by
      intro i hi
      simp only [Nat.testBit_shiftLeft, Bool.and_eq_true, decide_eq_true_eq] at hi
      have : ¬ f.width ≤ i - f.offset := fun hc => by
        rw [Nat.testBit_lt_two_pow (lt_of_lt_of_le (hv f List.mem_cons_self)
          (Nat.pow_le_pow_right (by omega) hc))] at hi
        exact absurd hi.2 (by simp)
      simp only [laneCovers, Bool.and_eq_true, decide_eq_true_eq]
      omega
    have disj : acc ||| fieldValue vals f <<< f.offset = acc + fieldValue vals f * 2 ^ f.offset := by
      rw [or_eq_add_of_disjoint, Nat.shiftLeft_eq]
      intro i hi
      by_contra hc
      have := ha i hi f List.mem_cons_self
      rw [bits i (by simpa using hc)] at this
      exact absurd this (by simp)
    rw [List.pairwise_cons] at hd
    rw [packAcc, ih hd.2 (fun g hg => hv g (List.mem_cons_of_mem f hg)), disj, List.map_cons, List.sum_cons]
    · omega
    · intro i hi g hg
      rw [Nat.testBit_or, Bool.or_eq_true] at hi
      rcases hi with hi | hi
      · exact ha i hi g (List.mem_cons_of_mem f hg)
      · exact hd.1 g hg i (bits i hi)

/-- The same for a proper layout and legal values. -/
theorem packAcc_eq_sum_of_proper {l : Layout} (h : properLayout l = true) {vals : FieldValues}
    (hv : l.all (fieldLegal vals) = true) :
    packAcc vals l 0 = (l.map fun f => fieldValue vals f * 2 ^ f.offset).sum := by
  rw [packAcc_eq_sum, Nat.zero_add]
  · refine lanes_pairwise (fun f hf => (field_inside_word h hf).2) fun i hi => ?_
    simp only [properLayout, Bool.and_eq_true, List.all_eq_true, List.mem_range, beq_iff_eq] at h
    exact (h.2 i hi).le
  · exact fun f hf => fieldValue_lt h hf (List.all_eq_true.mp hv f hf)
  · simp

end Sys2Proof.Machine
end

