-- ==== Sys2Proof/Laws/PerInstr.lean ====
section
/-! SUPPORT. One law per instruction: what the encoder puts on the inputs has the format that opcode_table.json gives
the instruction's row. -/

namespace Sys2Proof.Laws.EncodeFormat

/-- The presentation has the row's format: OPSEL2 with the row's match and mask, WORD48 with the row's key and the
value as the word, or PROC, which is presented by name. A value the row's key does not select is presented by name
too. -/
def Statement (i : Instr) : Prop :=
  match i with
  | .encData p => p.fit = true → ∃ op ports, encode i = .select op ports ∧ op &&& 0b10#2 = 0b00#2
  | .encFrame t => t.fit = true → ∃ ports, encode i = .select 0b10#2 ports
  | .encFramek => ∃ ports, encode i = .select 0b11#2 ports
  | .decFrame v => (∃ w, encode i = .word w ∧ w.toNat = v ∧ kindOfWord w = .frame) ∨ encode i = .call i
  | .decData v => (∃ w, encode i = .word w ∧ w.toNat = v ∧ kindOfWord w = .data) ∨ encode i = .call i
  | .frameSentinel => encode i = .word 0xe8005000eb00#48
  | .muxSel _ _ _ => encode i = .call i
  | .pack _ _ => encode i = .call i
  | .unpack _ _ => encode i = .call i
  | .classify _ => encode i = .call i
  | .renderHex _ => encode i = .call i
  | .sample => encode i = .call i
  | .genChunk _ => encode i = .call i
  | .genOutput _ _ => encode i = .call i

/-- A value is presented as the word itself exactly when its key selects the decoder that is meant. -/
theorem encodeWordOr_cases (v : Nat) (k : Kind) (i : Instr) :
    (∃ w, encodeWordOr v k i = .word w ∧ w.toNat = v ∧ kindOfWord w = k) ∨ encodeWordOr v k i = .call i := by
  unfold encodeWordOr
  split
  · rename_i h
    refine .inl ⟨_, rfl, ?_, h.2.2⟩
    rw [BitVec.toNat_ofNat]
    exact Nat.mod_eq_of_lt h.1
  · exact .inr rfl

theorem encData (p : DataPorts) : Statement (.encData p) :=
  fun h => ⟨0b00#2, portBits p zeroFrameTriple, if_pos h, rfl⟩

theorem encFrame (t : FrameTriple) : Statement (.encFrame t) :=
  fun h => ⟨portBits zeroDataPorts t, if_pos h⟩

theorem encFramek : Statement .encFramek := ⟨_, rfl⟩

theorem decFrame (v : Nat) : Statement (.decFrame v) := encodeWordOr_cases v .frame (.decFrame v)

theorem decData (v : Nat) : Statement (.decData v) := encodeWordOr_cases v .data (.decData v)

theorem frameSentinel : Statement .frameSentinel := rfl

theorem muxSel (a b : Bool) (p : Ports) : Statement (.muxSel a b p) := rfl

theorem pack (l : Layout) (vals : FieldValues) : Statement (.pack l vals) := rfl

theorem unpack (l : Layout) (w : Word) : Statement (.unpack l w) := rfl

theorem classify (w : Word) : Statement (.classify w) := rfl

theorem renderHex (v : Nat) : Statement (.renderHex v) := rfl

theorem sample : Statement .sample := rfl

theorem genChunk (n : Nat) : Statement (.genChunk n) := rfl

theorem genOutput (c n : Nat) : Statement (.genOutput c n) := rfl

end Sys2Proof.Laws.EncodeFormat
end

