-- ==== Sys2Proof/Laws/Render.lean ====
section
/-! SUPPORT. The token of a word: its digits, its length, and the number its nibbles make (R135, R136, R138), and the
text of a list of words (R43). -/

namespace Sys2Proof.Machine

/-- Each of the sixteen digits is a lowercase hexadecimal digit, and stands at its own place among them (R136). -/
theorem hexDigit_spec : ∀ d < 16,
    hexDigit d ∈ ['0', '1', '2', '3', '4', '5', '6', '7', '8', '9', 'a', 'b', 'c', 'd', 'e', 'f'] ∧
    ['0', '1', '2', '3', '4', '5', '6', '7', '8', '9', 'a', 'b', 'c', 'd', 'e', 'f'].idxOf (hexDigit d) = d ∧
    (hexDigit d == ' ') = false := by decide

/-- A nibble is below 16. -/
theorem nibble_lt (v k : Nat) : slice v (47 - 4 * k) (44 - 4 * k) < 16 :=
  lt_of_lt_of_le (Nat.mod_lt _ (by positivity))
    (Nat.pow_le_pow_right (by omega) (show 47 - 4 * k - (44 - 4 * k) + 1 ≤ 4 by omega))

@[simp] theorem hexToken_length (v : Nat) : (hexToken v).length = 12 := by simp [hexToken]

/-- Every character of a token is a digit of some nibble. -/
theorem mem_hexToken {v : Nat} {ch : Char} (h : ch ∈ hexToken v) : ∃ d < 16, ch = hexDigit d := by
  simp only [hexToken, List.mem_map] at h
  obtain ⟨k, -, rfl⟩ := h
  exact ⟨_, nibble_lt v k, rfl⟩

/-- Reading digits back is reading their values (R138). -/
theorem tokenValue_digits {ds : List Nat} (h : ∀ d ∈ ds, d < 16) :
    tokenValue (ds.map hexDigit) = ds.foldl (fun a d => a * 16 + d) 0 := by
  suffices ∀ acc, (ds.map hexDigit).foldl (fun acc ch => acc * 16 + ['0', '1', '2', '3', '4', '5', '6', '7', '8', '9',
      'a', 'b', 'c', 'd', 'e', 'f'].idxOf ch) acc = ds.foldl (fun a d => a * 16 + d) acc from this 0
  induction ds with
  | nil => exact fun _ => rfl
  | cons d ds ih =>
    intro acc
    rw [List.map_cons, List.foldl_cons, List.foldl_cons, (hexDigit_spec d (h d List.mem_cons_self)).2.1]
    exact ih (fun x hx => h x (List.mem_cons_of_mem d hx)) _

/-- The first `m` nibbles of a value below `2^48`, as one number (R34). -/
theorem nibbles_value {v : Nat} (hv : v < 2 ^ 48) {m : Nat} (hm : m ≤ 12) :
    ((List.range m).map fun k => slice v (47 - 4 * k) (44 - 4 * k)).foldl (fun a d => a * 16 + d) 0 =
      v / 2 ^ (48 - 4 * m) := by
  induction m with
  | zero => simp only [List.range_zero, List.map_nil, List.foldl_nil]; exact (Nat.div_eq_of_lt hv).symm
  | succ m ih =>
    rw [List.range_succ, List.map_append, List.foldl_append, ih (by omega)]
    simp only [List.map_cons, List.map_nil, List.foldl_cons, List.foldl_nil, slice_def]
    have e1 : 48 - 4 * m = 44 - 4 * m + 4 := by omega
    have e2 : 47 - 4 * m - (44 - 4 * m) + 1 = 4 := by omega
    have e3 : 48 - 4 * (m + 1) = 44 - 4 * m := by omega
    rw [e1, e2, e3, Nat.pow_add, ← Nat.div_div_eq_div_mul]
    omega

theorem renderHex_of_lt {v : Nat} (h : v < 2 ^ 48) : renderHex v = .ok (hexToken v) := if_neg (by omega)

/-- A word of 48 bits always renders (R137). -/
@[simp] theorem renderHex_word (w : Word) : renderHex w.toNat = .ok (hexToken w.toNat) := renderHex_of_lt w.isLt

/-- Encoding and rendering fail only in the encoder (R137, R190). -/
theorem renderWord_ok (op : OpName) (w : Word) : renderWord op (.ok w) = .ok (w, hexToken w.toNat) := by
  simp [renderWord]

@[simp] theorem renderWord_error (op : OpName) (f : FaultInfo) : renderWord op (.error f) = .error (f, op) := rfl

/-- A line's tokens with the last one told apart: each earlier token is followed by one space (R39). -/
theorem joinTokens_append_single (ws : List Word) (w : Word) :
    joinTokens (ws ++ [w]) = (ws.map fun x => hexToken x.toNat ++ [' ']).flatten ++ hexToken w.toNat := by
  induction ws with
  | nil => simp [joinTokens]
  | cons x xs ih =>
    cases xs with
    | nil => simp [joinTokens]
    | cons y ys =>
      have : joinTokens (x :: (y :: ys ++ [w])) = hexToken x.toNat ++ ' ' :: joinTokens (y :: ys ++ [w]) := rfl
      rw [List.cons_append, this, ih]
      simp

end Sys2Proof.Machine
end

