-- ==== Sys2Proof/Laws/State.lean ====
section
/-! SUPPORT. One lemma per field per update: what each named operation on the state leaves in each field. -/

namespace Sys2Proof.Machine

/-- The `fault_field` port carries the field's number of R181. -/
@[simp] theorem fieldPort_fieldCode (f : FieldName) : FieldPort f (fieldCode f) := by
  cases f with
  | other name => exact .inr ⟨name, rfl⟩
  | _ => exact .inl (by decide)

/-- The numbers 19..31 are never produced (R181). -/
theorem fieldCode_le (f : FieldName) : (fieldCode f).toNat ≤ 18 := by
  cases f with
  | other name =>
    have := Nat.mod_lt (Config.fieldNumber name) (show 0 < 19 by omega)
    rw [fieldCode, BitVec.toNat_ofNat, Nat.mod_eq_of_lt (by omega)]
    omega
  | _ => decide

/-- The `fault_cause` port carries the cause's number of R181. -/
@[simp] theorem mem_causeNumbers (c : Cause) : (c, causeCode c) ∈ causeNumbers := by cases c <;> decide

@[simp] theorem answer_word (r : Result) (s : State) : (answer r s).word = (wordOfResult r).getD (Config.freeWord s.freeCount) := rfl
@[simp] theorem answer_fault (r : Result) (s : State) : (answer r s).fault = false := rfl
@[simp] theorem answer_faultCause (r : Result) (s : State) : (answer r s).faultCause = 0 := rfl
@[simp] theorem answer_faultField (r : Result) (s : State) : (answer r s).faultField = 0 := rfl
@[simp] theorem answer_widx (r : Result) (s : State) : (answer r s).widx = s.widx := rfl
@[simp] theorem answer_cidx (r : Result) (s : State) : (answer r s).cidx = s.cidx := rfl
@[simp] theorem answer_phase (r : Result) (s : State) : (answer r s).phase = s.phase := rfl
@[simp] theorem answer_fr (r : Result) (s : State) : (answer r s).fr = s.fr := rfl
@[simp] theorem answer_out (r : Result) (s : State) : (answer r s).out = s.out := rfl
@[simp] theorem answer_cfg (r : Result) (s : State) : (answer r s).cfg = s.cfg := rfl
@[simp] theorem answer_src (r : Result) (s : State) : (answer r s).src = s.src := rfl
@[simp] theorem answer_sink (r : Result) (s : State) : (answer r s).sink = s.sink := rfl
@[simp] theorem answer_result (r : Result) (s : State) : (answer r s).result = r := rfl
@[simp] theorem answer_inbox (r : Result) (s : State) : (answer r s).inbox = s.inbox := rfl
@[simp] theorem answer_freeCount (r : Result) (s : State) : (answer r s).freeCount = if (wordOfResult r).isSome then s.freeCount else s.freeCount + 1 := rfl

@[simp] theorem raiseFault_word (f : FaultInfo) (s : State) : (raiseFault f s).word = Config.freeWord s.freeCount := rfl
@[simp] theorem raiseFault_fault (f : FaultInfo) (s : State) : (raiseFault f s).fault = true := rfl
@[simp] theorem raiseFault_faultCause (f : FaultInfo) (s : State) : (raiseFault f s).faultCause = causeCode f.cause := rfl
@[simp] theorem raiseFault_faultField (f : FaultInfo) (s : State) : (raiseFault f s).faultField = fieldCode f.field := rfl
@[simp] theorem raiseFault_widx (f : FaultInfo) (s : State) : (raiseFault f s).widx = s.widx := rfl
@[simp] theorem raiseFault_cidx (f : FaultInfo) (s : State) : (raiseFault f s).cidx = s.cidx := rfl
@[simp] theorem raiseFault_phase (f : FaultInfo) (s : State) : (raiseFault f s).phase = s.phase := rfl
@[simp] theorem raiseFault_fr (f : FaultInfo) (s : State) : (raiseFault f s).fr = s.fr := rfl
@[simp] theorem raiseFault_out (f : FaultInfo) (s : State) : (raiseFault f s).out = s.out := rfl
@[simp] theorem raiseFault_cfg (f : FaultInfo) (s : State) : (raiseFault f s).cfg = s.cfg := rfl
@[simp] theorem raiseFault_src (f : FaultInfo) (s : State) : (raiseFault f s).src = s.src := rfl
@[simp] theorem raiseFault_sink (f : FaultInfo) (s : State) : (raiseFault f s).sink = s.sink := rfl
@[simp] theorem raiseFault_result (f : FaultInfo) (s : State) : (raiseFault f s).result = .fault f.cause f.field := rfl
@[simp] theorem raiseFault_inbox (f : FaultInfo) (s : State) : (raiseFault f s).inbox = s.inbox := rfl
@[simp] theorem raiseFault_freeCount (f : FaultInfo) (s : State) : (raiseFault f s).freeCount = s.freeCount + 1 := rfl

@[simp] theorem seqFault_word (f : FaultInfo) (op : OpName) (s : State) : (seqFault f op s).word = Config.freeWord s.freeCount := rfl
@[simp] theorem seqFault_fault (f : FaultInfo) (op : OpName) (s : State) : (seqFault f op s).fault = true := rfl
@[simp] theorem seqFault_faultCause (f : FaultInfo) (op : OpName) (s : State) : (seqFault f op s).faultCause = causeCode f.cause := rfl
@[simp] theorem seqFault_faultField (f : FaultInfo) (op : OpName) (s : State) : (seqFault f op s).faultField = fieldCode f.field := rfl
@[simp] theorem seqFault_widx (f : FaultInfo) (op : OpName) (s : State) : (seqFault f op s).widx = s.widx := rfl
@[simp] theorem seqFault_cidx (f : FaultInfo) (op : OpName) (s : State) : (seqFault f op s).cidx = s.cidx := rfl
@[simp] theorem seqFault_phase (f : FaultInfo) (op : OpName) (s : State) : (seqFault f op s).phase = .faulted := rfl
@[simp] theorem seqFault_fr (f : FaultInfo) (op : OpName) (s : State) : (seqFault f op s).fr = some (s.fr.getD ⟨f.cause, f.field, op⟩) := rfl
@[simp] theorem seqFault_out (f : FaultInfo) (op : OpName) (s : State) : (seqFault f op s).out = s.out := rfl
@[simp] theorem seqFault_cfg (f : FaultInfo) (op : OpName) (s : State) : (seqFault f op s).cfg = s.cfg := rfl
@[simp] theorem seqFault_src (f : FaultInfo) (op : OpName) (s : State) : (seqFault f op s).src = s.src := rfl
@[simp] theorem seqFault_sink (f : FaultInfo) (op : OpName) (s : State) : (seqFault f op s).sink = s.sink := rfl
@[simp] theorem seqFault_result (f : FaultInfo) (op : OpName) (s : State) : (seqFault f op s).result = .fault f.cause f.field := rfl
@[simp] theorem seqFault_inbox (f : FaultInfo) (op : OpName) (s : State) : (seqFault f op s).inbox = s.inbox := rfl
@[simp] theorem seqFault_freeCount (f : FaultInfo) (op : OpName) (s : State) : (seqFault f op s).freeCount = s.freeCount + 1 := rfl

@[simp] theorem applyReset_word (s : State) : (applyReset s).word = 0 := rfl
@[simp] theorem applyReset_fault (s : State) : (applyReset s).fault = false := rfl
@[simp] theorem applyReset_faultCause (s : State) : (applyReset s).faultCause = 0 := rfl
@[simp] theorem applyReset_faultField (s : State) : (applyReset s).faultField = 0 := rfl
@[simp] theorem applyReset_widx (s : State) : (applyReset s).widx = 0 := rfl
@[simp] theorem applyReset_cidx (s : State) : (applyReset s).cidx = 0 := rfl
@[simp] theorem applyReset_phase (s : State) : (applyReset s).phase = .idle := rfl
@[simp] theorem applyReset_fr (s : State) : (applyReset s).fr = none := rfl
@[simp] theorem applyReset_out (s : State) : (applyReset s).out = OutStream.empty := rfl
@[simp] theorem applyReset_cfg (s : State) : (applyReset s).cfg = s.cfg := rfl
@[simp] theorem applyReset_src (s : State) : (applyReset s).src = s.src := rfl
@[simp] theorem applyReset_sink (s : State) : (applyReset s).sink = s.sink := rfl
@[simp] theorem applyReset_result (s : State) : (applyReset s).result = .none := rfl
@[simp] theorem applyReset_inbox (s : State) : (applyReset s).inbox = s.inbox := rfl
@[simp] theorem applyReset_freeCount (s : State) : (applyReset s).freeCount = s.freeCount := rfl

@[simp] theorem emit_word (w : Word) (s : State) : (emit w s).word = s.word := rfl
@[simp] theorem emit_fault (w : Word) (s : State) : (emit w s).fault = s.fault := rfl
@[simp] theorem emit_faultCause (w : Word) (s : State) : (emit w s).faultCause = s.faultCause := rfl
@[simp] theorem emit_faultField (w : Word) (s : State) : (emit w s).faultField = s.faultField := rfl
@[simp] theorem emit_widx (w : Word) (s : State) : (emit w s).widx = s.widx := rfl
@[simp] theorem emit_cidx (w : Word) (s : State) : (emit w s).cidx = s.cidx := rfl
@[simp] theorem emit_phase (w : Word) (s : State) : (emit w s).phase = s.phase := rfl
@[simp] theorem emit_fr (w : Word) (s : State) : (emit w s).fr = s.fr := rfl
@[simp] theorem emit_out (w : Word) (s : State) : (emit w s).out = ⟨s.out.closed, s.out.openChunk ++ [w]⟩ := rfl
@[simp] theorem emit_cfg (w : Word) (s : State) : (emit w s).cfg = s.cfg := rfl
@[simp] theorem emit_src (w : Word) (s : State) : (emit w s).src = s.src := rfl
@[simp] theorem emit_sink (w : Word) (s : State) : (emit w s).sink = s.sink := rfl
@[simp] theorem emit_result (w : Word) (s : State) : (emit w s).result = s.result := rfl
@[simp] theorem emit_inbox (w : Word) (s : State) : (emit w s).inbox = s.inbox := rfl
@[simp] theorem emit_freeCount (w : Word) (s : State) : (emit w s).freeCount = s.freeCount := rfl

@[simp] theorem emitClosing_word (w : Word) (s : State) : (emitClosing w s).word = s.word := rfl
@[simp] theorem emitClosing_fault (w : Word) (s : State) : (emitClosing w s).fault = s.fault := rfl
@[simp] theorem emitClosing_faultCause (w : Word) (s : State) : (emitClosing w s).faultCause = s.faultCause := rfl
@[simp] theorem emitClosing_faultField (w : Word) (s : State) : (emitClosing w s).faultField = s.faultField := rfl
@[simp] theorem emitClosing_widx (w : Word) (s : State) : (emitClosing w s).widx = s.widx := rfl
@[simp] theorem emitClosing_cidx (w : Word) (s : State) : (emitClosing w s).cidx = s.cidx := rfl
@[simp] theorem emitClosing_phase (w : Word) (s : State) : (emitClosing w s).phase = s.phase := rfl
@[simp] theorem emitClosing_fr (w : Word) (s : State) : (emitClosing w s).fr = s.fr := rfl
@[simp] theorem emitClosing_out (w : Word) (s : State) : (emitClosing w s).out = ⟨s.out.closed ++ [s.out.openChunk ++ [w]], []⟩ := rfl
@[simp] theorem emitClosing_cfg (w : Word) (s : State) : (emitClosing w s).cfg = s.cfg := rfl
@[simp] theorem emitClosing_src (w : Word) (s : State) : (emitClosing w s).src = s.src := rfl
@[simp] theorem emitClosing_sink (w : Word) (s : State) : (emitClosing w s).sink = s.sink := rfl
@[simp] theorem emitClosing_result (w : Word) (s : State) : (emitClosing w s).result = s.result := rfl
@[simp] theorem emitClosing_inbox (w : Word) (s : State) : (emitClosing w s).inbox = s.inbox := rfl
@[simp] theorem emitClosing_freeCount (w : Word) (s : State) : (emitClosing w s).freeCount = s.freeCount := rfl

@[simp] theorem presentNext_word (p : Presented) (s : State) : (presentNext p s).word = s.word := rfl
@[simp] theorem presentNext_fault (p : Presented) (s : State) : (presentNext p s).fault = s.fault := rfl
@[simp] theorem presentNext_faultCause (p : Presented) (s : State) : (presentNext p s).faultCause = s.faultCause := rfl
@[simp] theorem presentNext_faultField (p : Presented) (s : State) : (presentNext p s).faultField = s.faultField := rfl
@[simp] theorem presentNext_widx (p : Presented) (s : State) : (presentNext p s).widx = s.widx := rfl
@[simp] theorem presentNext_cidx (p : Presented) (s : State) : (presentNext p s).cidx = s.cidx := rfl
@[simp] theorem presentNext_phase (p : Presented) (s : State) : (presentNext p s).phase = s.phase := rfl
@[simp] theorem presentNext_fr (p : Presented) (s : State) : (presentNext p s).fr = s.fr := rfl
@[simp] theorem presentNext_out (p : Presented) (s : State) : (presentNext p s).out = s.out := rfl
@[simp] theorem presentNext_cfg (p : Presented) (s : State) : (presentNext p s).cfg = s.cfg := rfl
@[simp] theorem presentNext_src (p : Presented) (s : State) : (presentNext p s).src = s.src := rfl
@[simp] theorem presentNext_sink (p : Presented) (s : State) : (presentNext p s).sink = s.sink := rfl
@[simp] theorem presentNext_result (p : Presented) (s : State) : (presentNext p s).result = s.result := rfl
@[simp] theorem presentNext_inbox (p : Presented) (s : State) : (presentNext p s).inbox = .present p :: s.inbox := rfl
@[simp] theorem presentNext_freeCount (p : Presented) (s : State) : (presentNext p s).freeCount = s.freeCount := rfl

@[simp] theorem emitData_word (w : Word) (tok : Text) (s : State) : (emitData w tok s).word = w := rfl
@[simp] theorem emitData_fault (w : Word) (tok : Text) (s : State) : (emitData w tok s).fault = false := rfl
@[simp] theorem emitData_faultCause (w : Word) (tok : Text) (s : State) : (emitData w tok s).faultCause = 0 := rfl
@[simp] theorem emitData_faultField (w : Word) (tok : Text) (s : State) : (emitData w tok s).faultField = 0 := rfl
@[simp] theorem emitData_widx (w : Word) (tok : Text) (s : State) : (emitData w tok s).widx = s.widx + 1 := rfl
@[simp] theorem emitData_cidx (w : Word) (tok : Text) (s : State) : (emitData w tok s).cidx = s.cidx := rfl
@[simp] theorem emitData_phase (w : Word) (tok : Text) (s : State) : (emitData w tok s).phase = s.phase := rfl
@[simp] theorem emitData_fr (w : Word) (tok : Text) (s : State) : (emitData w tok s).fr = s.fr := rfl
@[simp] theorem emitData_out (w : Word) (tok : Text) (s : State) : (emitData w tok s).out = ⟨s.out.closed, s.out.openChunk ++ [w]⟩ := rfl
@[simp] theorem emitData_cfg (w : Word) (tok : Text) (s : State) : (emitData w tok s).cfg = s.cfg := rfl
@[simp] theorem emitData_src (w : Word) (tok : Text) (s : State) : (emitData w tok s).src = s.src := rfl
@[simp] theorem emitData_sink (w : Word) (tok : Text) (s : State) : (emitData w tok s).sink = s.sink := rfl
@[simp] theorem emitData_result (w : Word) (tok : Text) (s : State) : (emitData w tok s).result = .token w tok := rfl
@[simp] theorem emitData_inbox (w : Word) (tok : Text) (s : State) : (emitData w tok s).inbox = s.inbox := rfl
@[simp] theorem emitData_freeCount (w : Word) (tok : Text) (s : State) : (emitData w tok s).freeCount = s.freeCount := rfl

@[simp] theorem emitFrame_word (w : Word) (tok : Text) (s : State) : (emitFrame w tok s).word = w := rfl
@[simp] theorem emitFrame_fault (w : Word) (tok : Text) (s : State) : (emitFrame w tok s).fault = false := rfl
@[simp] theorem emitFrame_faultCause (w : Word) (tok : Text) (s : State) : (emitFrame w tok s).faultCause = 0 := rfl
@[simp] theorem emitFrame_faultField (w : Word) (tok : Text) (s : State) : (emitFrame w tok s).faultField = 0 := rfl
@[simp] theorem emitFrame_widx (w : Word) (tok : Text) (s : State) : (emitFrame w tok s).widx = 0 := rfl
@[simp] theorem emitFrame_cidx (w : Word) (tok : Text) (s : State) : (emitFrame w tok s).cidx = s.cidx + 1 := rfl
@[simp] theorem emitFrame_phase (w : Word) (tok : Text) (s : State) : (emitFrame w tok s).phase = if s.cidx + 1 = s.cfg.c then .done else s.phase := rfl
@[simp] theorem emitFrame_fr (w : Word) (tok : Text) (s : State) : (emitFrame w tok s).fr = s.fr := rfl
@[simp] theorem emitFrame_out (w : Word) (tok : Text) (s : State) : (emitFrame w tok s).out = ⟨s.out.closed ++ [s.out.openChunk ++ [w]], []⟩ := rfl
@[simp] theorem emitFrame_cfg (w : Word) (tok : Text) (s : State) : (emitFrame w tok s).cfg = s.cfg := rfl
@[simp] theorem emitFrame_src (w : Word) (tok : Text) (s : State) : (emitFrame w tok s).src = s.src := rfl
@[simp] theorem emitFrame_sink (w : Word) (tok : Text) (s : State) : (emitFrame w tok s).sink = s.sink := rfl
@[simp] theorem emitFrame_result (w : Word) (tok : Text) (s : State) : (emitFrame w tok s).result = .token w tok := rfl
@[simp] theorem emitFrame_inbox (w : Word) (tok : Text) (s : State) : (emitFrame w tok s).inbox = s.inbox := rfl
@[simp] theorem emitFrame_freeCount (w : Word) (tok : Text) (s : State) : (emitFrame w tok s).freeCount = s.freeCount := rfl

end Sys2Proof.Machine
end

