-- ==== Sys2Proof/Laws/Sampler.lean ====
section
/-! SUPPORT. What a draw can answer, and that SAMPLE's fields are always legal (R146, R153). -/

namespace Sys2Proof.Machine

/-- A draw answers inside its interval, and the source advances by one answer (R146). -/
theorem draw_spec {lo hi : Nat} (h : lo ≤ hi) (src : Source) :
    lo ≤ (draw lo hi src).1 ∧ (draw lo hi src).1 ≤ hi ∧ (draw lo hi src).2 = ⟨src.script.tail, src.draws + 1⟩ := by
  have hf : Config.drawAnswer src.draws % (hi - lo + 1) ≤ hi - lo := by
    have := Nat.mod_lt (Config.drawAnswer src.draws) (show 0 < hi - lo + 1 by omega)
    omega
  unfold draw
  cases hs : src.script with
  | nil => simp; omega
  | cons r rest =>
    by_cases hr : lo ≤ r ∧ r ≤ hi
    · simp [hr]
    · simp only [hr, if_false, List.tail_cons, and_true]; omega

/-- A scripted answer inside the interval is the answer (R19, log 9). -/
theorem draw_scripted {lo hi r : Nat} {rest : List Nat} {src : Source} (hs : src.script = r :: rest) (hl : lo ≤ r)
    (hh : r ≤ hi) : draw lo hi src = (r, ⟨rest, src.draws + 1⟩) := by
  simp [draw, hs, hl, hh]

/-- The pileup that SAMPLE draws is legal, with one draw or two (R149). -/
theorem samplePileup_spec (src : Source) :
    (∀ p ∈ (samplePileup src).1, p ≤ 4) ∧
    ((samplePileup src).2.draws = src.draws + 1 ∨ (samplePileup src).2.draws = src.draws + 2) := by
  have h1 := (draw_spec (lo := 0) (hi := Config.pileupModulus - 1) (by decide) src).2.2
  have h2 := draw_spec (lo := 0) (hi := 4) (by omega) (draw 0 (Config.pileupModulus - 1) src).2
  unfold samplePileup
  by_cases h : (draw 0 (Config.pileupModulus - 1) src).1 = 0
  · simp only [h, if_true]
    refine ⟨fun p hp => ?_, Or.inr ?_⟩
    · rw [Option.mem_some_iff] at hp; rw [← hp]; exact h2.2.1
    · rw [h2.2.2, h1]
  · simp [h, h1]

/-- SAMPLE's fields are legal operands of ENC.DATA, and take seven or eight draws (R152, R153). -/
theorem sampleFields_spec (src : Source) :
    DataLegal (sampleFields src).1 ∧
    ((sampleFields src).2.draws = src.draws + 7 ∨ (sampleFields src).2.draws = src.draws + 8) := by
  unfold sampleFields
  dsimp only
  have h1 := draw_spec (lo := 0) (hi := 89) (by omega) src
  generalize draw 0 89 src = d1 at *
  have h2 := draw_spec (lo := 0) (hi := 4) (by omega) d1.2
  generalize draw 0 4 d1.2 = d2 at *
  have h3 := samplePileup_spec d2.2
  generalize samplePileup d2.2 = d3 at *
  have h4 := draw_spec (lo := 0) (hi := 4095) (by omega) d3.2
  generalize draw 0 4095 d3.2 = d4 at *
  have h5 := draw_spec (lo := 0) (hi := 31) (by omega) d4.2
  generalize draw 0 31 d4.2 = d5 at *
  have h6 := draw_spec (lo := 0) (hi := 63) (by omega) d5.2
  generalize draw 0 63 d5.2 = d6 at *
  have h7 := draw_spec (lo := 0) (hi := 31) (by omega) d6.2
  generalize draw 0 31 d6.2 = d7 at *
  refine ⟨⟨h1.2.1, h2.2.1, h3.1, h4.2.1, h5.2.1, h6.2.1, h7.2.1⟩, ?_⟩
  rw [h7.2.2, h6.2.2, h5.2.2, h4.2.2]
  have := h3.2
  rw [h2.2.2, h1.2.2] at this
  simp only at this ⊢
  omega

/-- SAMPLE's encoding and rendering never fail (R153). -/
theorem sampleWord_spec (src : Source) :
    ∃ w, encData (sampleFields src).1 = .ok w ∧ wfData w = true ∧ sampleWord src = .ok (w, hexToken w.toNat) := by
  have h := encData_of_legal (sampleFields_spec src).1
  exact ⟨_, h, wfData_of_encData h, by rw [sampleWord, h, renderWord_ok]⟩

end Sys2Proof.Machine
end

