-- ==== Sys2Proof/Laws/Sequencer.lean ====
section
/-! SUPPORT. What a step of SEQ can do, said once: it emits a data word, or closes a chunk, or faults (R164, R165,
R170). -/

namespace Sys2Proof.Machine

/-- A step of SEQ that emitted a data word (R164). -/
structure EmittedData (s t : State) (w : Word) : Prop where
  sampled : encData (sampleFields s.src).1 = .ok w
  wf : wfData w = true
  before : s.widx < s.cfg.n
  accepted : (sinkDecision s.sink).1 = true
  eq : t = emitData w (hexToken w.toNat)
    { s with src := (sampleFields s.src).2, sink := (sinkWrite (hexToken w.toNat ++ [' ']) s.sink).2 }

/-- A step of SEQ that closed the chunk (R165). -/
structure ClosedChunk (s t : State) (w : Word) : Prop where
  encoded : frameWord s.cfg.mode (chunkTriple s) = .ok w
  wf : wfFrameOrK w = true
  before : s.widx = s.cfg.n
  accepted : (sinkDecision s.sink).1 = true
  eq : t = emitFrame w (hexToken w.toNat)
    { s with freeCount := s.freeCount + 1, sink := (sinkWrite (hexToken w.toNat ++ s.cfg.lineBreak) s.sink).2 }

/-- A step of SEQ that faulted (R170): SEQ records the fault and stops. -/
structure FaultedStep (s t : State) (f : FaultInfo) (op : OpName) : Prop where
  phase : t.phase = .faulted
  fr : t.fr = some ⟨f.cause, f.field, op⟩
  result : t.result = .fault f.cause f.field
  fault : t.fault = true
  faultCause : t.faultCause = causeCode f.cause
  faultField : t.faultField = fieldCode f.field
  out : t.out = s.out
  widx : t.widx = s.widx
  cidx : t.cidx = s.cidx
  cfg : t.cfg = s.cfg
  inbox : t.inbox = s.inbox

/-- A write of SEQ: accepted, or a fault (R169). -/
theorem seqWrite_cases (txt : Text) (op : OpName) (acc : State → State) (s : State) :
    ((sinkDecision s.sink).1 = true ∧ seqWrite txt op acc s = acc { s with sink := (sinkWrite txt s.sink).2 }) ∨
    ((sinkDecision s.sink).1 = false ∧
      seqWrite txt op acc s = seqFault sinkFailure op { s with sink := (sinkWrite txt s.sink).2 }) := by
  unfold seqWrite
  cases h : (sinkDecision s.sink).1 <;> simp [sinkWrite, h]

/-- The frame word of a chunk is a well-formed frame word or the sentinel (R163, R105). -/
theorem frameWord_wf {m : FrameMode} {t : FrameTriple} {w : Word} (h : frameWord m t = .ok w) :
    wfFrameOrK w = true := by
  cases m with
  | fixed => cases h; decide
  | general => simp [wfFrameOrK, wfFrame_of_encFrame h]

/-- A fault of SEQ when FR was not yet set (R170). -/
theorem faultedStep_of_seqFault {s u : State} (f : FaultInfo) (op : OpName) (hfr : u.fr = none) (h1 : u.out = s.out)
    (h2 : u.widx = s.widx) (h3 : u.cidx = s.cidx) (h4 : u.cfg = s.cfg) (h5 : u.inbox = s.inbox) :
    FaultedStep s (seqFault f op u) f op := by
  constructor <;> simp [hfr, h1, h2, h3, h4, h5]

/-- The data-word step, with FR not set (R164, R170). -/
theorem seqData_cases {s : State} (hfr : s.fr = none) (hw : s.widx < s.cfg.n) :
    (∃ w, EmittedData s (seqData s) w) ∨
    ((sinkDecision s.sink).1 = false ∧ FaultedStep s (seqData s) sinkFailure .dataStep) := by
  obtain ⟨w, he, hwf, hs⟩ := sampleWord_spec s.src
  unfold seqData
  rw [hs]
  rcases seqWrite_cases (hexToken w.toNat ++ [' ']) .dataStep (emitData w (hexToken w.toNat))
    { s with src := (sampleFields s.src).2 } with ⟨ha, h⟩ | ⟨ha, h⟩
  · exact .inl ⟨w, he, hwf, hw, ha, h⟩
  · refine .inr ⟨ha, ?_⟩
    dsimp only
    rw [h]
    exact faultedStep_of_seqFault _ _ hfr rfl rfl rfl rfl rfl

/-- The frame-word step, with FR not set (R165, R170). -/
theorem seqFrame_cases {s : State} (hfr : s.fr = none) (hw : s.widx = s.cfg.n) :
    (∃ w, ClosedChunk s (seqFrame s) w) ∨
    (∃ f, frameWord s.cfg.mode (chunkTriple s) = .error f ∧ FaultedStep s (seqFrame s) f .encFrame ∧
      (seqFrame s).src = s.src ∧ (seqFrame s).sink = s.sink) ∨
    ((sinkDecision s.sink).1 = false ∧ (∃ w, frameWord s.cfg.mode (chunkTriple s) = .ok w) ∧
      FaultedStep s (seqFrame s) sinkFailure .frameStep) := by
  unfold seqFrame
  cases he : frameWord s.cfg.mode (chunkTriple s) with
  | error f => exact .inr (.inl ⟨f, rfl, faultedStep_of_seqFault _ _ hfr rfl rfl rfl rfl rfl, rfl, rfl⟩)
  | ok w =>
    rw [renderWord_ok]
    rcases seqWrite_cases (hexToken w.toNat ++ s.cfg.lineBreak) .frameStep (emitFrame w (hexToken w.toNat))
      { s with freeCount := s.freeCount + 1 } with ⟨ha, h⟩ | ⟨ha, h⟩
    · exact .inl ⟨w, he, frameWord_wf he, hw, ha, h⟩
    · refine .inr (.inr ⟨ha, ⟨w, rfl⟩, ?_⟩)
      dsimp only
      rw [h]
      exact faultedStep_of_seqFault _ _ hfr rfl rfl rfl rfl rfl

/-- What an enabled step of SEQ does (R164, R165, R170). -/
theorem seqAdvance_cases {s t : State} (h : seqAdvance s = some t) :
    s.phase = .run ∧ s.fr = none ∧
    ((∃ w, EmittedData s t w) ∨ (∃ w, ClosedChunk s t w) ∨ (∃ f op, FaultedStep s t f op)) := by
  unfold seqAdvance at h
  split at h
  · rename_i hp
    refine ⟨hp.1, hp.2, ?_⟩
    split at h
    · cases h
      rcases seqData_cases hp.2 ‹_› with h | ⟨-, h⟩
      · exact .inl h
      · exact .inr (.inr ⟨_, _, h⟩)
    · split at h
      · cases h
        rcases seqFrame_cases hp.2 ‹_› with h | ⟨f, -, h, -⟩ | ⟨-, -, h⟩
        · exact .inr (.inl h)
        · exact .inr (.inr ⟨_, _, h⟩)
        · exact .inr (.inr ⟨_, _, h⟩)
      · cases h
  · cases h

/-- A step of SEQ leaves the configuration and the host's events (R16, R196). -/
theorem seqAdvance_keeps {s t : State} (h : seqAdvance s = some t) : t.cfg = s.cfg ∧ t.inbox = s.inbox := by
  obtain ⟨-, -, ⟨w, h⟩ | ⟨w, h⟩ | ⟨f, op, h⟩⟩ := seqAdvance_cases h
  · simp [h.eq]
  · simp [h.eq]
  · exact ⟨h.cfg, h.inbox⟩

/-- A step of SEQ does not look at the host's events (log 21). -/
theorem seqAdvance_withInbox (s : State) (r : List HostEvent) :
    seqAdvance { s with inbox := r } = (seqAdvance s).map fun t => { t with inbox := r } := by
  simp only [seqAdvance, seqData, seqFrame, chunkTriple, seqWrite]
  split
  · split
    · split
      · rfl
      · split <;> rfl
    · split
      · split
        · rfl
        · split <;> rfl
      · rfl
  · rfl

/-- SEQ has a step exactly in a run that has not gone past its chunk (R164, R165, R213). -/
theorem seqAdvance_isSome_iff {s : State} :
    (∃ t, seqAdvance s = some t) ↔ s.phase = .run ∧ s.fr = none ∧ s.widx ≤ s.cfg.n := by
  unfold seqAdvance
  by_cases hp : s.phase = .run ∧ s.fr = none
  · rw [if_pos hp]
    rcases lt_trichotomy s.widx s.cfg.n with hw | hw | hw
    · simp [hw, hp, hw.le]
    · simp [hw, hp]
    · rw [if_neg (by omega), if_neg (by omega)]
      simp only [reduceCtorEq, exists_false, false_iff]
      omega
  · rw [if_neg hp]
    simp only [reduceCtorEq, exists_false, false_iff]
    exact fun h => hp ⟨h.1, h.2.1⟩

/-- Property `P` of states is kept by a run of SEQ steps when it is kept by each step. -/
theorem seqRun_keeps {P : State → Prop} (hP : ∀ s t, P s → seqAdvance s = some t → P t) (k : Nat) (s : State)
    (h : P s) : P (seqRun k s) := by
  induction k generalizing s with
  | zero => exact h
  | succ k ih =>
    unfold seqRun
    cases ha : seqAdvance s with
    | none => exact h
    | some t => exact ih t (hP s t h ha)

/-- The two outcomes of the start step that are faults, and the one that is not (R166). -/
theorem seqStart_cases (op : OpName) (s : State) :
    (s.cfg.c = 0 ∧ seqStart op s = seqFault (configInvalid .numChunks) op s) ∨
    (s.cfg.c ≠ 0 ∧ s.cfg.n = 0 ∧ seqStart op s = seqFault (configInvalid .numDataWords) op s) ∨
    (s.cfg.c ≠ 0 ∧ s.cfg.n ≠ 0 ∧ seqStart op s = { s with widx := 0, cidx := 0, phase := .run }) := by
  unfold seqStart
  by_cases hc : s.cfg.c = 0
  · exact .inl ⟨hc, if_pos (by omega)⟩
  · by_cases hn : s.cfg.n = 0
    · exact .inr (.inl ⟨hc, hn, by rw [if_neg (by omega), if_pos (by omega)]⟩)
    · exact .inr (.inr ⟨hc, hn, by rw [if_neg (by omega), if_neg (by omega)]⟩)

/-- A run may be started exactly in IDLE with no fault recorded (R166, U12). -/
theorem startable_iff {s : State} : startable s = true ↔ s.phase = .idle ∧ s.fr = none := by
  simp [startable]

end Sys2Proof.Machine
end

