-- ==== Sys2Proof/Laws/Step.lean ====
section
/-! SUPPORT. What one step of the machine can do, said once: every later claim about a step is a case analysis over
`step_cases`, and no other proof unfolds `step`, `exec` or `hostEvent`. -/

namespace Sys2Proof.Machine

/-- SEQ, FR, OUT and the configuration are as they were. -/
structure SameRun (s t : State) : Prop where
  widx : t.widx = s.widx
  cidx : t.cidx = s.cidx
  phase : t.phase = s.phase
  fr : t.fr = s.fr
  out : t.out = s.out
  cfg : t.cfg = s.cfg

/-- The outcome of an operation changes the ports and the outcome alone (R37, R84). -/
theorem deliver_onlyOutcome (e : Except FaultInfo Result) (s : State) : OnlyOutcome s (deliver e s) := by
  cases e <;> simp [deliver, OnlyOutcome]

/-- A pure operation delivers an outcome that its operands alone decide (R10). -/
theorem exec_pure {i : Instr} {s t : State} (hp : pureOp i = true) (h : exec i s = .next t) :
    ∃ e, t = deliver e s ∧ ∀ s', exec i s' = .next (deliver e s') := by
  cases i with
  | encData p => cases h; exact ⟨_, rfl, fun _ => rfl⟩
  | encFrame p => cases h; exact ⟨_, rfl, fun _ => rfl⟩
  | encFramek => cases h; exact ⟨_, rfl, fun _ => rfl⟩
  | decFrame p => cases h; exact ⟨_, rfl, fun _ => rfl⟩
  | decData p => cases h; exact ⟨_, rfl, fun _ => rfl⟩
  | frameSentinel => cases h; exact ⟨_, rfl, fun _ => rfl⟩
  | muxSel => cases h; exact ⟨_, rfl, fun _ => rfl⟩
  | classify => cases h; exact ⟨_, rfl, fun _ => rfl⟩
  | renderHex => cases h; exact ⟨_, rfl, fun _ => rfl⟩
  | pack l v =>
    simp only [exec, execPack] at h ⊢
    split at h
    · cases h
    · split at h
      · cases h
      · rename_i h1 h2
        cases h
        exact ⟨_, rfl, fun _ => by rw [if_neg h1, if_neg h2]⟩
  | unpack l w =>
    simp only [exec, execUnpack] at h ⊢
    split at h
    · cases h
    · rename_i h1
      cases h
      exact ⟨_, rfl, fun _ => by rw [if_neg h1]⟩
  | sample => cases hp
  | genChunk n => cases hp
  | genOutput c n => cases hp

/-- What an operation can do (R37, R153, R161, R162). -/
theorem exec_cases {i : Instr} {s t : State} (h : exec i s = .next t) :
    (SameRun s t ∧ t.sink = s.sink ∧ t.inbox = s.inbox) ∨
    (startable s = true ∧ ∃ r op c n, t = finishRun r (runAll op c n s)) := by
  by_cases hp : pureOp i = true
  · obtain ⟨e, rfl, -⟩ := exec_pure hp h
    obtain ⟨h1, h2, h3, h4, h5, h6, -, h8, h9⟩ := deliver_onlyOutcome e s
    exact .inl ⟨⟨h1, h2, h3, h4, h5, h6⟩, h8, h9⟩
  · cases i with
    | sample =>
      simp only [exec, execSample] at h
      obtain ⟨h1, h2, h3, h4, h5, h6, -, h8, h9⟩ := deliver_onlyOutcome
        (match sampleWord s.src with
          | .ok (w, tok) => .ok (.token w tok)
          | .error (f, _) => .error f)
        { s with src := (sampleFields s.src).2 }
      cases h
      exact .inl ⟨⟨h1, h2, h3, h4, h5, h6⟩, h8, h9⟩
    | genChunk n =>
      simp only [exec, execGenChunk] at h
      split at h
      · rename_i hs
        cases h
        exact .inr ⟨hs, _, _, _, _, rfl⟩
      · cases h
    | genOutput c n =>
      simp only [exec, execGenOutput] at h
      split at h
      · rename_i hs
        cases h
        exact .inr ⟨hs, _, _, _, _, rfl⟩
      · cases h
    | _ => exact absurd rfl hp

/-- Whose turn it is, by the host's oldest event (R217). -/
theorem step_of_inbox (s : State) :
    (s.inbox = [] ∧ step s = seqTurn s) ∨
    (∃ p rest, s.inbox = .present p :: rest ∧
      step s = match decode p with
        | .ok i => exec i { s with inbox := rest }
        | .error e => .refused (.noEncoding e)) ∨
    (∃ e rest, s.inbox = e :: rest ∧ (∀ p, e ≠ .present p) ∧ step s = hostEvent e { s with inbox := rest }) := by
  cases hi : s.inbox with
  | nil => exact .inl ⟨rfl, by simp only [step, nextTurn, hi]⟩
  | cons e rest =>
    cases e with
    | present p =>
      refine .inr (.inl ⟨p, rest, rfl, ?_⟩)
      simp only [step, nextTurn, hi]
      cases decode p <;> rfl
    | _ => exact .inr (.inr ⟨_, rest, rfl, by simp, by simp only [step, nextTurn, hi]⟩)

/-- What an event of the host can do (R166, R211, R217). -/
theorem hostEvent_cases {e : HostEvent} {s t : State} (h : hostEvent e s = .next t) :
    SameRun s t ∨
    seqAdvance s = some t ∨
    (e = .reset ∧ t = applyReset s) ∨
    (s.phase = .idle ∧ ∃ cfg, t = { s with cfg := cfg }) ∨
    (startable s = true ∧ t = seqStart .start s) := by
  cases e with
  | present p => cases h; exact .inl ⟨rfl, rfl, rfl, rfl, rfl, rfl⟩
  | configure cfg =>
    simp only [hostEvent] at h
    split at h
    · rename_i hi
      cases h
      exact .inr (.inr (.inr (.inl ⟨hi, _, rfl⟩)))
    · cases h
  | supplySource script =>
    simp only [hostEvent] at h
    split at h
    · cases h
    · cases h
      exact .inl ⟨rfl, rfl, rfl, rfl, rfl, rfl⟩
  | supplySink answers =>
    simp only [hostEvent] at h
    split at h
    · cases h
    · cases h
      exact .inl ⟨rfl, rfl, rfl, rfl, rfl, rfl⟩
  | start =>
    simp only [hostEvent] at h
    split at h
    · rename_i hs
      cases h
      exact .inr (.inr (.inr (.inr ⟨hs, rfl⟩)))
    · cases h
  | reset => cases h; exact .inr (.inr (.inl ⟨rfl, rfl⟩))
  | letRun =>
    simp only [hostEvent] at h
    cases ha : seqAdvance s with
    | none => rw [ha] at h; cases h; exact .inl ⟨rfl, rfl, rfl, rfl, rfl, rfl⟩
    | some u => rw [ha] at h; cases h; exact .inr (.inl rfl)

/-- What one step can do (R5, R164 to R166, R211, R217): leave the run alone, take a step of SEQ, reset, set the
configuration, start, or be a whole run. `u` is the state with the host's event taken. -/
theorem step_cases {s t : State} (h : step s = .next t) :
    ∃ rest, ∃ u, u = { s with inbox := rest } ∧
      (SameRun u t ∨
       seqAdvance u = some t ∨
       (s.inbox.head? = some .reset ∧ t = applyReset u) ∨
       (u.phase = .idle ∧ ∃ cfg, t = { u with cfg := cfg }) ∨
       (startable u = true ∧ t = seqStart .start u) ∨
       (startable u = true ∧ ∃ r op c n, t = finishRun r (runAll op c n u))) := by
  rcases step_of_inbox s with ⟨hi, he⟩ | ⟨p, rest, -, he⟩ | ⟨e, rest, hi, -, he⟩
  · rw [he, seqTurn] at h
    refine ⟨s.inbox, s, rfl, .inr (.inl ?_)⟩
    split at h
    · rename_i ha
      cases h
      exact ha
    · cases h
  · rw [he] at h
    refine ⟨rest, _, rfl, ?_⟩
    split at h
    · rcases exec_cases h with ⟨h, -, -⟩ | h
      · exact .inl h
      · exact .inr (.inr (.inr (.inr (.inr h))))
    · cases h
  · rw [he] at h
    refine ⟨rest, _, rfl, ?_⟩
    rcases hostEvent_cases h with h | h | ⟨rfl, hr⟩ | h | h
    · exact .inl h
    · exact .inr (.inl h)
    · exact .inr (.inr (.inl ⟨by rw [hi]; rfl, hr⟩))
    · exact .inr (.inr (.inr (.inl h)))
    · exact .inr (.inr (.inr (.inr (.inl h))))

/-- SEQ has no step outside a run (R14). -/
theorem seqAdvance_none {s : State} (h : s.phase ≠ .run) : seqAdvance s = none := by
  cases ha : seqAdvance s with
  | none => rfl
  | some t => exact absurd (seqAdvance_cases ha).1 h

/-- A run of SEQ steps stays where SEQ has stopped. -/
theorem seqRun_stopped {k : Nat} {s : State} (h : s.phase ≠ .run) : seqRun k s = s := by
  cases k with
  | zero => rfl
  | succ k => rw [seqRun, seqAdvance_none h]

/-- `k + 1` steps of the machine are one step and `k` more. -/
theorem core_run_next {s t : State} (h : step s = .next t) (k : Nat) :
    Host.Core.run Sys2Proof.core (k + 1) s = Host.Core.run Sys2Proof.core k t := by
  have : Sys2Proof.core.step s = .next t := h
  simp only [Host.Core.run, this]

end Sys2Proof.Machine
end

