-- ==== Sys2Proof/Tests/Slice0.lean ====
section
/-! SUPPORT. Tests. Expected values are the vectors V<n> and programs P<n> of spec/95_test_vectors.md, or a rule
named beside the test. Then one witness for the hypotheses of each obligation. -/

namespace Sys2Proof.Tests

open Sys2Proof Sys2Proof.Machine

/-- The next state of an outcome, if it is one. -/
def after (o : Host.Outcome State Fault Refusal) : Option State :=
  match o with
  | .next t => some t
  | _ => none

/-- The reset state with an operation presented. -/
def presenting (i : Instr) : State := { State.reset with inbox := [.present (encode i)] }

/-- A state ready to run with scripted draws and an accepting sink. -/
def ready (script : List Nat) (answers : List Bool) : State :=
  { State.reset with src := ⟨script, 0⟩, sink := ⟨[], answers, 0⟩ }

/-- A state in a run of `c` chunks of `n` data words. -/
def running (n c widx cidx : Nat) (mode : FrameMode) (frames : List FrameTriple) (out : OutStream) (script : List Nat)
    (answers : List Bool) : State :=
  { ready script answers with
    cfg := ⟨n, c, mode, frames, ['\n']⟩, widx := widx, cidx := cidx, phase := .run, out := out }

/-- The draws of V170. -/
def drawsV170 : List Nat := [5, 2, 17, 100, 3, 10, 1]

/-- The draws of V176. -/
def drawsV176 : List Nat := [7, 0, 17, 1000, 9, 33, 4]

/-! ### What WellFormed refuses, one term for each check -/

theorem test_wellFormed_accepts : WellFormed (.encData ⟨127, 7, true, 7, 4095, 31, 63, 31⟩) = true := by decide
theorem test_wellFormed_address : WellFormed (.encData ⟨128, 0, false, 0, 0, 0, 0, 0⟩) = false := by decide
theorem test_wellFormed_arbPos : WellFormed (.encData ⟨0, 8, false, 0, 0, 0, 0, 0⟩) = false := by decide
theorem test_wellFormed_puPos : WellFormed (.encData ⟨0, 0, true, 8, 0, 0, 0, 0⟩) = false := by decide
theorem test_wellFormed_leadCoarse : WellFormed (.encData ⟨0, 0, false, 0, 4096, 0, 0, 0⟩) = false := by decide
theorem test_wellFormed_leadFine : WellFormed (.encData ⟨0, 0, false, 0, 0, 32, 0, 0⟩) = false := by decide
theorem test_wellFormed_trailCoarse : WellFormed (.encData ⟨0, 0, false, 0, 0, 0, 64, 0⟩) = false := by decide
theorem test_wellFormed_trailFine : WellFormed (.encData ⟨0, 0, false, 0, 0, 0, 0, 32⟩) = false := by decide
theorem test_wellFormed_qchipCc : WellFormed (.encFrame ⟨64, 0, 0⟩) = false := by decide
theorem test_wellFormed_hitCnt : WellFormed (.encFrame ⟨0, 512, 0⟩) = false := by decide
theorem test_wellFormed_frameCnt : WellFormed (.encFrame ⟨0, 0, 268435456⟩) = false := by decide
theorem test_wellFormed_decFrame : WellFormed (.decFrame 0x1000000000000) = false := by decide
theorem test_wellFormed_decData : WellFormed (.decData 0x1000000000000) = false := by decide
theorem test_wellFormed_muxData :
    WellFormed (.muxSel true true ⟨⟨128, 0, false, 0, 0, 0, 0, 0⟩, zeroFrameTriple⟩) = false := by decide
theorem test_wellFormed_muxFrame : WellFormed (.muxSel true true ⟨zeroDataPorts, ⟨64, 0, 0⟩⟩) = false := by decide

/-- A layout whose lanes leave bit 47 uncovered is not proper (R116). -/
theorem test_wellFormed_packHole :
    WellFormed (.pack [⟨.address, 0, 47, .input 0 1, .always⟩] [(.address, 0)]) = false := by decide

/-- An input field with no value (R117). -/
theorem test_wellFormed_packValue :
    WellFormed (.pack [⟨.address, 0, 48, .input 0 1, .always⟩] []) = false := by decide

/-- A layout with two lanes over bit 0 is not proper (R116). -/
theorem test_wellFormed_unpackOverlap :
    WellFormed (.unpack [⟨.address, 0, 48, .input 0 1, .always⟩, ⟨.gap, 0, 1, .const 0, .always⟩] 0#48) = false := by
  decide

/-- A constant that does not fit its lane (R116). -/
theorem test_wellFormed_unpackConst : WellFormed (.unpack [⟨.gap, 0, 48, .const (2 ^ 48), .always⟩] 0#48) = false := by
  decide

theorem test_dataLayout_proper : properLayout dataLayout = true := by decide
theorem test_frameLayout_proper : properLayout frameLayout = true := by decide

/-! ### Decoding, bit by bit -/

/-- R62: 0x is ENC.DATA, whatever bit 0. -/
theorem test_decode_encData : decodeTableWord 8 0b01 = some (.encData zeroDataPorts) := by decide
theorem test_decode_encFrame : decodeTableWord 8 0b10 = some (.encFrame zeroFrameTriple) := by decide
theorem test_decode_encFramek : decodeTableWord 8 0b11 = some .encFramek := by decide

/-- V77's word, its fields written out by R52: 111 00 010101 100101100 and 123456 in 28 bits. -/
theorem test_decode_decFrame :
    decodeTableWord 48 0b111000101011001011000000000000011110001001000000 = some (.decFrame 0xe2b2c001e240) := by
  decide

/-- V1's word, its fields written out by R51: 1 0000101 00100 00000 0 000001100100 00011 0 001010 00001. -/
theorem test_decode_decData :
    decodeTableWord 48 0b100001010010000000000000110010000011000101000001 = some (.decData 0x852000c83141) := by
  decide

/-- R61: 111 01 000000 000000101 0000000000001110101100000000. -/
theorem test_decode_frameSentinel :
    decodeTableWord 48 0b111010000000000001010000000000001110101100000000 = some .frameSentinel := by decide

/-- R60 row 1: bit 47 is 0. -/
theorem test_decode_none : decodeTableWord 48 0b011111111111111111111111111111111111111111111111 = none := by decide

/-- The ports of V42, each with the width R11 gives it. -/
theorem test_decode_ports :
    decode (.select 0b00#2
      ⟨0b0010001#7, 0b001#3, 0b0#1, 0b000#3, 0b010011010010#12, 0b10101#5, 0b101101#6, 0b11110#5, 0#6, 0#9, 0#28⟩) =
    .ok (.encData ⟨17, 1, false, 0, 1234, 21, 45, 30⟩) := by decide

/-- A procedure has no bit pattern and is presented by name (R62). -/
theorem test_decode_byName : decode (encode (.genOutput 2 1)) = .ok (.genOutput 2 1) := by decide

/-- The bits of a row, placed as the first thing after reset, are run by the first step: V126's word, by R107. -/
theorem test_withFetchWord :
    (after (step (State.reset.withFetchWord 48 0xe00000000000))).map (·.result) = some (.frame ⟨0, 0, 0⟩ 0) := by decide

/-! ### One step on a small state -/

theorem test_encData_V42 :
    (after (step (presenting (.encData ⟨17, 1, false, 0, 1234, 21, 45, 30⟩)))).map (·.word) =
      some 0x911009a555be#48 := by decide

theorem test_encData_V61 :
    (after (exec (.encData ⟨0, 0, false, 0, 0, 0, 64, 32⟩) State.reset)).map
      (fun t => (t.fault, t.faultCause, t.faultField)) = some (true, 1#3, 6#5) := by decide

theorem test_encFrame_V77 :
    (after (step (presenting (.encFrame ⟨21, 300, 123456⟩)))).map (·.word) = some 0xe2b2c001e240#48 := by decide

theorem test_encFrame_V85 :
    (after (exec (.encFrame ⟨64, 512, 0⟩) State.reset)).map (fun t => (t.fault, t.faultCause, t.faultField)) =
      some (true, 1#3, 8#5) := by decide

theorem test_encFramek_V81 :
    (after (step (presenting .encFramek))).map (·.word) = some 0xe8005000eb00#48 := by decide

theorem test_decFrame_V145 :
    (after (step (presenting (.decFrame 0xe02010000001)))).map (·.result) = some (.frame ⟨1, 1, 1⟩ 0) := by decide

theorem test_decFrame_V149 :
    (after (step (presenting (.decFrame 0xf00000000000)))).map (·.result) = some (.fault .malformedWord .gap) := by
  decide

theorem test_decData_V131 :
    (after (step (presenting (.decData 0xd9841ffff7ff)))).map (·.result) =
      some (.data ⟨89, 4, some 4, 4095, 31, 63, 31⟩) := by decide

theorem test_decData_V144 :
    (after (step (presenting (.decData 0x800020000000)))).map (fun t => (t.faultCause, t.faultField)) =
      some (5#3, 2#5) := by decide

theorem test_frameSentinel_V147 :
    (after (step (presenting .frameSentinel))).map (·.result) = some (.frame ⟨0, 5, 60160⟩ 1) := by decide

theorem test_muxSel_V114 :
    (after (step (presenting (.muxSel true false ⟨⟨127, 2, false, 0, 100, 3, 10, 1⟩, ⟨1, 1, 1⟩⟩)))).map (·.word) =
      some 0xe02010000001#48 := by decide

theorem test_muxSel_V117 :
    (after (step (presenting (.muxSel false false ⟨⟨5, 2, true, 5, 100, 3, 10, 1⟩, ⟨1, 1, 1⟩⟩)))).map
      (fun t => (t.fault, t.faultCause, t.faultField)) = some (true, 1#3, 3#5) := by decide

theorem test_pack_V91 :
    (after (exec (.pack dataLayout [(.address, 89), (.addressArbiter, 16), (.addressPileup, 16),
      (.leadingCoarseTime, 4095), (.leadingFineTime, 31), (.trailingCoarseTime, 63), (.trailingFineTime, 31)])
      State.reset)).map (·.word) = some 0xd9841ffff7ff#48 := by decide

theorem test_pack_V93 :
    (after (exec (.pack dataLayout [(.address, 0), (.addressArbiter, 3), (.addressPileup, 0),
      (.leadingCoarseTime, 0), (.leadingFineTime, 0), (.trailingCoarseTime, 0), (.trailingFineTime, 0)])
      State.reset)).map (·.result) = some (.fault .rangeViolation .addressArbiter) := by decide

theorem test_unpack_V102 :
    (after (exec (.unpack dataLayout 0xe8005000eb00#48) State.reset)).map (·.result) =
      some (.fields [(.dataSelector, 1), (.address, 104), (.addressArbiter, 0), (.addressPileup, 1),
        (.leadingCoarseTimeSelector, 0), (.leadingCoarseTime, 2048), (.leadingFineTime, 14),
        (.trailingCoarseTimeSelector, 1), (.trailingCoarseTime, 24), (.trailingFineTime, 0)]) := by decide

theorem test_unpack_V107 :
    (after (exec (.unpack frameLayout 0x852000c83141#48) State.reset)).map (·.result) =
      some (.fields [(.frameSelector, 4), (.gap, 0), (.qchipCollisionCount, 41), (.hitCounter, 0),
        (.frameCounter, 13119809)]) := by decide

theorem test_classify_V125 :
    (after (step (presenting (.classify 0xdfffffffffff#48)))).map (·.result) = some (.kind .data) := by decide

theorem test_classify_V121 :
    (after (step (presenting (.classify 0x7fffffffffff#48)))).map (·.result) = some (.kind .none) := by decide

theorem test_renderHex_V162 :
    (after (step (presenting (.renderHex 0xabcdef)))).map (·.result) =
      some (.text ['0', '0', '0', '0', '0', '0', 'a', 'b', 'c', 'd', 'e', 'f']) := by decide

theorem test_renderHex_V166 :
    (after (step (presenting (.renderHex 0x1000000000000)))).map (fun t => (t.faultCause, t.faultField)) =
      some (2#3, 0#5) := by decide

theorem test_sample_V171 :
    (after (exec .sample (ready [5, 2, 0, 0, 100, 3, 10, 1] []))).map (fun t => (t.word, t.src.draws)) =
      some (0x852040c83141#48, 8) := by decide

theorem test_sample_V172 :
    (after (exec .sample (ready [5, 2, 332, 100, 3, 10, 1] []))).map (fun t => (t.word, t.src.draws)) =
      some (0x852000c83141#48, 7) := by decide

theorem test_genChunk_V181 :
    (after (exec (.genChunk 1) (ready drawsV176 [true, true]))).map (fun t => (t.out, t.phase)) =
      some (⟨[[0x870807d09424#48, 0xe8005000eb00#48]], []⟩, .done) := by decide

theorem test_genChunk_V182 :
    (after (exec (.genChunk 0) (ready drawsV176 []))).map (fun t => (t.faultCause, t.faultField, t.src.draws)) =
      some (4#3, 18#5, 0) := by decide

/-- P3, its output stream. -/
theorem test_genOutput_V185 :
    (after (exec (.genOutput 2 1) (ready (drawsV176 ++ [89, 4, 0, 3, 4095, 31, 63, 31]) [true, true, true, true]))).map
      (·.out.closed) =
      some [[0x870807d09424#48, 0xe8005000eb00#48], [0xd9821ffff7ff#48, 0xe8005000eb00#48]] := by decide

theorem test_genOutput_V184 :
    (after (exec (.genOutput 0 0) (ready [] []))).map (·.result) = some (.fault .configInvalid .numChunks) := by decide

/-- P4, step 2: the bad triple faults the run and emits nothing. -/
theorem test_seq_P4 :
    (after (step (running 1 2 1 0 .general [⟨0, 512, 0⟩] ⟨[], [0x870807d09424#48]⟩ [] [true]))).map
      (fun t => (t.phase, t.fr, t.out)) =
      some (.faulted, some ⟨.rangeViolation, .hitCounter, .encFrame⟩, ⟨[], [0x870807d09424#48]⟩) := by decide

/-! ### Witnesses: states and operands that meet the hypotheses of each obligation, together -/

/-- The state at the start of the first chunk of a run of one chunk of one word. -/
def runStart : State := running 1 1 0 0 .fixed [] OutStream.empty drawsV170 [true, true]

/-- The same run before its frame word. -/
def runFrame : State := running 1 1 1 0 .fixed [] ⟨[], [0x852000c83141#48]⟩ [] [true]

/-- A run that has faulted. -/
def runFaulted : State := { runFrame with phase := .faulted, fr := some ⟨.sinkFailure, .none, .frameStep⟩ }

/-- A run that has ended. -/
def runDone : State :=
  { runFrame with phase := .done, widx := 0, cidx := 1, out := ⟨[[0x852000c83141#48, 0xe8005000eb00#48]], []⟩ }

theorem allClosed {n : Nat} {l : List (List Word)} (h : l.all (chunkWf n) = true) : ∀ ch ∈ l, chunkWf n ch = true :=
  List.all_eq_true.mp h

theorem allOpen {l : List Word} (h : l.all wfData = true) : ∀ w ∈ l, wfData w = true := List.all_eq_true.mp h

theorem inv_runStart : RunInv runStart :=
  ⟨by decide, by decide, by decide, allClosed (by decide), by decide, allOpen (by decide), by decide, by decide, by decide,
    by decide⟩
theorem inv_runFrame : RunInv runFrame :=
  ⟨by decide, by decide, by decide, allClosed (by decide), by decide, allOpen (by decide), by decide, by decide, by decide,
    by decide⟩
theorem inv_runFaulted : RunInv runFaulted :=
  ⟨by decide, by decide, by decide, allClosed (by decide), by decide, allOpen (by decide), by decide, by decide, by decide,
    by decide⟩
theorem inv_reset : RunInv State.reset :=
  ⟨by decide, by decide, by decide, allClosed (by decide), by decide, allOpen (by decide), by decide, by decide, by decide,
    by decide⟩
theorem inv_runDone : RunInv runDone :=
  ⟨by decide, by decide, by decide, allClosed (by decide), by decide, allOpen (by decide), by decide, by decide, by decide,
    by decide⟩

/-- Largest operands of R80 and smallest, and pileup absent: for EncDataProducesTheFieldSum, EncDataBitSources,
DataRoundTrips and EncodersArePackOfTheirLayouts. -/
theorem witness_dataLegal :
    DataLegal ⟨89, 4, some 4, 4095, 31, 63, 31⟩ ∧ DataLegal ⟨0, 0, some 0, 0, 0, 0, 0⟩ ∧
    DataLegal ⟨0, 0, none, 0, 0, 0, 0⟩ := by decide

/-- Largest operands of R100 and smallest: for EncFrameProducesTheFieldSum, FrameBitSources and FrameRoundTrips. -/
theorem witness_frameLegal : FrameLegal ⟨63, 511, 268435455⟩ ∧ FrameLegal ⟨0, 0, 0⟩ := by decide

theorem witness_DecodeOfEncodeIsTheOperation :
    WellFormed (.encData ⟨127, 7, true, 7, 4095, 31, 63, 31⟩) = true ∧ WellFormed (.encFrame ⟨63, 511, 268435455⟩) = true ∧
    WellFormed .encFramek = true ∧ WellFormed (.decFrame 0xffffffffffff) = true ∧
    WellFormed (.decData 0) = true ∧ WellFormed .frameSentinel = true ∧
    WellFormed (.muxSel true false ⟨zeroDataPorts, zeroFrameTriple⟩) = true ∧
    WellFormed (.unpack frameLayout 0#48) = true ∧ WellFormed (.classify 0#48) = true ∧
    WellFormed (.renderHex 0) = true ∧ WellFormed .sample = true ∧ WellFormed (.genChunk 0) = true ∧
    WellFormed (.genOutput 0 0) = true ∧
    WellFormed (.pack frameLayout [(.qchipCollisionCount, 64), (.hitCounter, 0), (.frameCounter, 0)]) = true := by
  decide

/-- A select value and a word that decode, the words at the edges of the decoder's order. -/
theorem witness_OperationSelectDecodes :
    decode (.select 0b01#2 (portBits zeroDataPorts zeroFrameTriple)) = .ok (.encData zeroDataPorts) ∧
    decode (.word 0xe00000000000#48) = .ok (.decFrame 0xe00000000000) ∧
    decode (.word 0xdfffffffffff#48) = .ok (.decData 0xdfffffffffff) := by decide

theorem witness_StepRunsThePresentedOperation :
    (presenting .sample).inbox = .present (encode .sample) :: [] ∧ decode (encode .sample) = .ok .sample ∧
    decode (.word 0#48) = .error .wordOfNoKind := by decide

/-- Each check of R81 at the first value past its range (V50, V54 to V59). -/
theorem witness_EncDataRejectsTheFirstBadOperand :
    firstFailure (dataChecks ⟨90, 0, none, 0, 0, 0, 0⟩) = some .address ∧
    firstFailure (dataChecks ⟨89, 5, none, 0, 0, 0, 0⟩) = some .addressArbiter ∧
    firstFailure (dataChecks ⟨0, 4, some 5, 0, 0, 0, 0⟩) = some .addressPileup ∧
    firstFailure (dataChecks ⟨0, 0, some 4, 4096, 0, 0, 0⟩) = some .leadingCoarseTime ∧
    firstFailure (dataChecks ⟨0, 0, none, 4095, 32, 0, 0⟩) = some .leadingFineTime ∧
    firstFailure (dataChecks ⟨0, 0, none, 0, 31, 64, 0⟩) = some .trailingCoarseTime ∧
    firstFailure (dataChecks ⟨0, 0, none, 0, 0, 63, 32⟩) = some .trailingFineTime := by decide

/-- V22 and V21. -/
theorem witness_EncodedDataWordsKeepTheInvariants :
    encData ⟨89, 4, some 4, 4095, 31, 63, 31⟩ = .ok 0xd9841ffff7ff#48 ∧
    encData ⟨0, 0, none, 0, 0, 0, 0⟩ = .ok 0x800800000000#48 := by decide

/-- V22 and V21, for DataWordImageIsWfData, DataRoundTrips, DecDataFollowsItsTests and SampleReachesExactlyTheDataWords. -/
theorem witness_wfData :
    wfData 0xd9841ffff7ff#48 = true ∧ wfData 0x800800000000#48 = true ∧ wfDataNat 0xd9841ffff7ff = true := by
  decide

/-- V152, V135 to V142, the tests of R89 in order. -/
theorem witness_DecDataFollowsItsTests :
    firstFailure (decDataChecks 0x1000000000000) = some .width ∧ firstFailure (decDataChecks 0) = some .dataSelector ∧
    firstFailure (decDataChecks 0xe8005000eb00) = some .address ∧
    firstFailure (decDataChecks 0xda0800000000) = some .address ∧
    firstFailure (decDataChecks 0x800000000000) = some .addressArbiter ∧
    firstFailure (decDataChecks 0x8008c0000000) = some .addressPileup ∧
    firstFailure (decDataChecks 0x800820000000) = some .leadingCoarseTimeSelector ∧
    firstFailure (decDataChecks 0x800800000800) = some .trailingCoarseTimeSelector := by decide

/-- V82 to V84. -/
theorem witness_EncFrameRejectsTheFirstBadCounter :
    firstFailure (frameChecks ⟨64, 0, 0⟩) = some .qchipCollisionCount ∧
    firstFailure (frameChecks ⟨63, 512, 0⟩) = some .hitCounter ∧
    firstFailure (frameChecks ⟨0, 511, 268435456⟩) = some .frameCounter := by decide

/-- V71, V70 and a data word, for FrameWordImageIsOneInterval and FrameRoundTrips. -/
theorem witness_wfFrame :
    encFrame ⟨63, 511, 268435455⟩ = .ok 0xe7ffffffffff#48 ∧ wfFrame 0xe7ffffffffff#48 = true ∧
    wfFrame 0xe00000000000#48 = true ∧ wfData 0xdfffffffffff#48 = false ∧ wfData 0xd9841ffff7ff#48 = true := by decide

/-- V152, V151, V148, V149, then V146 and V147, which pass. -/
theorem witness_DecFrameFollowsItsTests :
    wfFrameNat 0xe7ffffffffff = true ∧ firstFailure (decFrameChecks 0xe7ffffffffff) = none ∧
    firstFailure (decFrameChecks 0xe8005000eb00) = none ∧
    firstFailure (decFrameChecks 0x1000000000000) = some .width ∧
    firstFailure (decFrameChecks 0) = some .frameSelector ∧ firstFailure (decFrameChecks 0xe80000000000) = some .gap ∧
    firstFailure (decFrameChecks 0xf00000000000) = some .gap := by decide

/-- Each of the three selected operations, with the other ports outside their ranges. -/
theorem witness_MuxSelProducesAWordOfTheSelectedKind :
    SelectedLegal false true ⟨⟨89, 4, true, 4, 4095, 31, 63, 31⟩, ⟨64, 0, 0⟩⟩ ∧
    SelectedLegal true false ⟨⟨127, 7, true, 7, 0, 0, 0, 0⟩, ⟨63, 511, 268435455⟩⟩ ∧
    SelectedLegal true true ⟨⟨127, 7, true, 7, 0, 0, 0, 0⟩, ⟨64, 512, 0⟩⟩ := by
  refine ⟨⟨?_, ?_⟩, ⟨?_, ?_⟩, ⟨?_, ?_⟩⟩ <;> decide

/-- V112 and V110: words that MUX.SEL returns, for ClassifyReadsTheMarkerBits and MuxSelIsTheSelectedOperation. -/
theorem witness_ClassifyReadsTheMarkerBits :
    muxSel true false ⟨⟨5, 2, false, 0, 100, 3, 10, 1⟩, ⟨1, 1, 1⟩⟩ = .ok 0xe02010000001#48 ∧
    muxSel false false ⟨⟨5, 2, false, 0, 100, 3, 10, 1⟩, ⟨1, 1, 1⟩⟩ = .ok 0x852000c83141#48 ∧
    (after (exec (.muxSel true true ⟨zeroDataPorts, zeroFrameTriple⟩) State.reset)).map (·.result) =
      some (.word 0xe8005000eb00#48) := by decide

/-- The operands of V96, of V93, and two for a layout of one field with its own name and its own predicate. -/
def valuesV96 : FieldValues := [(.qchipCollisionCount, 21), (.hitCounter, 300), (.frameCounter, 123456)]
def valuesV93 : FieldValues :=
  [(.address, 0), (.addressArbiter, 3), (.addressPileup, 0), (.leadingCoarseTime, 0), (.leadingFineTime, 0),
   (.trailingCoarseTime, 0), (.trailingFineTime, 0)]
def ownLayout : Layout := [⟨.other "payload", 0, 48, .input 0 9, .oneOf [1, 9]⟩]

/-- V96 and V78, which share no counter: for PackFollowsItsChecks, PackUnpackLaws, UnpackReadsEveryLane; the two
words share their `frame_selector` and `gap` values, for PackLanesNeverInteract. -/
theorem witness_PackFollowsItsChecks :
    properLayout frameLayout = true ∧ Supplied frameLayout valuesV96 ∧
    firstFailure (packChecks frameLayout valuesV96) = none ∧ pack frameLayout valuesV96 = .ok 0xe2b2c001e240#48 ∧
    pack frameLayout [(.qchipCollisionCount, 10), (.hitCounter, 20), (.frameCounter, 30)] = .ok 0xe1414000001e#48 ∧
    ⟨.gap, 43, 2, .const 0, .always⟩ ∈ frameLayout :=
  ⟨by decide, all_hasValue_iff.mp (by decide), by decide, by decide, by decide, by decide⟩

/-- V93: a mask with two bits set; and `pileup` with two bits set. -/
theorem witness_PackFollowsItsChecks_reject :
    properLayout dataLayout = true ∧ Supplied dataLayout valuesV93 ∧
    firstFailure (packChecks dataLayout valuesV93) = some .addressArbiter ∧
    firstFailure (packChecks dataLayout [(.address, 89), (.addressArbiter, 16), (.addressPileup, 5)]) =
      some .addressPileup :=
  ⟨by decide, all_hasValue_iff.mp (by decide), by decide, by decide⟩

/-- A layout of R116 with a name and a predicate of its own: 1 and 9 are accepted, 3 and 10 are not. -/
theorem witness_PackFollowsItsChecks_ownPredicate :
    properLayout ownLayout = true ∧ Supplied ownLayout [(.other "payload", 9)] ∧
    firstFailure (packChecks ownLayout [(.other "payload", 9)]) = none ∧
    firstFailure (packChecks ownLayout [(.other "payload", 3)]) = some (.other "payload") ∧
    firstFailure (packChecks ownLayout [(.other "payload", 10)]) = some (.other "payload") ∧
    (after (exec (.pack ownLayout [(.other "payload", 3)]) State.reset)).map (·.result) =
      some (.fault .rangeViolation (.other "payload")) :=
  ⟨by decide, all_hasValue_iff.mp (by decide), by decide, by decide, by decide, by decide⟩

/-- A layout with two lanes on one bit is not proper, nor is one with a hole; the values of R116's two predicates at
the edges of a lane. -/
theorem witness_LayoutsAreThoseOfTheRule :
    properLayout [⟨.gap, 0, 48, .input 0 1, .always⟩, ⟨.width, 47, 1, .const 1, .always⟩] = false ∧
    properLayout [⟨.gap, 1, 47, .input 0 1, .always⟩] = false ∧ properLayout ownLayout = true ∧
    condHolds .oneBit 0 = false ∧ condHolds .oneBit (2 ^ 47) = true ∧ condHolds .oneBit (2 ^ 47 + 1) = false ∧
    condHolds .atMostOneBit 0 = true ∧ condHolds .atMostOneBit 3 = false ∧ condHolds (.oneOf [1, 9]) 9 = true ∧
    condHolds (.oneOf [1, 9]) 0 = false := by decide

/-- The first bad operand on both sides: V54, V55 and two bad ones, and one position far past the lane. -/
theorem witness_EncodersArePackOfTheirLayouts :
    encData ⟨90, 5, none, 0, 0, 0, 0⟩ = .error (rangeViolation .address) ∧
    pack dataLayout (dataPackValues ⟨90, 5, none, 0, 0, 0, 0⟩) = .error (rangeViolation .address) ∧
    encData ⟨0, 5, some 7, 0, 0, 0, 0⟩ = .error (rangeViolation .addressArbiter) ∧
    pack dataLayout (dataPackValues ⟨0, 0, some 7, 4096, 0, 0, 0⟩) = .error (rangeViolation .addressPileup) := by
  decide

theorem witness_RenderHexFollowsItsRule : 0xffffffffffff < 2 ^ 48 ∧ 2 ^ 48 ≤ 0x1000000000000 := by decide

/-- V170 (trigger 17), V175 (trigger 0) and V172 (trigger 332). -/
theorem witness_SampleConsumesDrawsInOrder :
    (ready [5, 2, 17, 100, 3, 10, 1] []).src.script = 5 :: 2 :: 17 :: ((none : Option Nat).toList ++ [100, 3, 10, 1]) ∧
    (17 = 0 ↔ (none : Option Nat).isSome = true) ∧
    (ready [89, 4, 0, 4, 4095, 31, 63, 31] []).src.script =
      89 :: 4 :: 0 :: ((some 4 : Option Nat).toList ++ [4095, 31, 63, 31]) ∧
    (0 = 0 ↔ (some 4 : Option Nat).isSome = true) ∧ (332 = 0 ↔ (none : Option Nat).isSome = true) ∧
    DataLegal ⟨5, 2, none, 100, 3, 10, 1⟩ ∧ DataLegal ⟨89, 4, some 4, 4095, 31, 63, 31⟩ := by decide

theorem witness_DataStepEmitsOneSampledWord :
    runStart.inbox = [] ∧ runStart.phase = .run ∧ runStart.fr = none ∧ runStart.widx < runStart.cfg.n ∧
    runStart.sink.answers = true :: [true] := by decide

/-- FIXED mode at the last chunk; FIXED mode at a chunk that is not the last; GENERAL mode, P2 before its frame
word. -/
theorem witness_FrameStepClosesTheChunk :
    (runFrame.inbox = [] ∧ runFrame.phase = .run ∧ runFrame.fr = none ∧ runFrame.widx = runFrame.cfg.n ∧
      runFrame.cfg.mode = .fixed ∧ runFrame.sink.answers = true :: [] ∧ runFrame.cidx + 1 = runFrame.cfg.c) ∧
    (let s := running 1 2 1 0 .fixed [] ⟨[], [0x852000c83141#48]⟩ [] [true];
      s.inbox = [] ∧ s.widx = s.cfg.n ∧ s.sink.answers = true :: [] ∧ s.cidx + 1 ≠ s.cfg.c) ∧
    (let s := running 2 1 2 0 .general [⟨1, 1, 1⟩] ⟨[], [0x870807d09424#48, 0xd9805ffff7ff#48]⟩ [] [true];
      s.inbox = [] ∧ s.phase = .run ∧ s.fr = none ∧ s.widx = s.cfg.n ∧ s.sink.answers = true :: [] ∧
      s.cfg.mode = .general ∧ s.cfg.frames[s.cidx]? = some ⟨1, 1, 1⟩ ∧ FrameLegal ⟨1, 1, 1⟩) := by decide

/-- P4, before its step 2. -/
theorem witness_BadHostTripleFaultsTheRun :
    let s := running 1 2 1 0 .general [⟨0, 512, 0⟩] ⟨[], [0x870807d09424#48]⟩ [] []
    s.inbox = [] ∧ s.phase = .run ∧ s.fr = none ∧ s.widx = s.cfg.n ∧ s.cfg.mode = .general ∧
      s.cfg.frames[s.cidx]? = some ⟨0, 512, 0⟩ ∧ firstFailure (frameChecks ⟨0, 512, 0⟩) = some .hitCounter := by decide

/-- A refused write at a data word, at a fixed frame word, and at a frame word of GENERAL mode. -/
theorem witness_RefusedWriteFaultsTheRun :
    (let s := running 1 1 0 0 .fixed [] OutStream.empty drawsV170 [false];
      s.inbox = [] ∧ s.phase = .run ∧ s.fr = none ∧ s.sink.answers = false :: [] ∧ s.widx < s.cfg.n) ∧
    (let s := running 1 1 1 0 .fixed [] ⟨[], [0x852000c83141#48]⟩ [] [false];
      s.sink.answers = false :: [] ∧ s.widx = s.cfg.n ∧ (s.cfg.mode = .general → FrameLegal (chunkTriple s))) ∧
    (let s := running 1 1 1 0 .general [⟨63, 511, 0⟩] ⟨[], [0x852000c83141#48]⟩ [] [false];
      s.sink.answers = false :: [] ∧ s.widx = s.cfg.n ∧ s.cfg.mode = .general ∧ chunkTriple s = ⟨63, 511, 0⟩ ∧
      FrameLegal ⟨63, 511, 0⟩) := by
  refine ⟨by decide, ⟨rfl, rfl, fun h => ?_⟩, by decide⟩
  cases h

/-- The three clauses: C is 0, N alone is 0, and neither. -/
theorem witness_StartChecksPositivity :
    let s : State := { State.reset with inbox := [.start] }
    let n0 : State := { s with cfg := { s.cfg with c := 1, n := 0 } }
    let ok : State := { s with cfg := { s.cfg with c := 1, n := 1 } }
    (s.inbox = .start :: [] ∧ s.phase = .idle ∧ s.fr = none ∧ s.cfg.c = 0) ∧
    (n0.inbox = .start :: [] ∧ n0.cfg.c ≠ 0 ∧ n0.cfg.n = 0) ∧ (ok.cfg.c ≠ 0 ∧ ok.cfg.n ≠ 0) := by decide

theorem witness_ProceduresRejectEmptyCounts : State.reset.phase = .idle ∧ State.reset.fr = none ∧ 1 ≤ 1 := by decide

/-- One word in FIXED mode, and one in GENERAL mode with the largest triple. -/
theorem witness_GenChunkClosesOneChunk :
    (let s := ready drawsV170 [true, true];
      ReadyToRun s ∧ 1 ≤ 1 ∧ SinkAccepts (1 + 1) s ∧ s.cfg.mode = .fixed) ∧
    (let s := { ready drawsV170 [true, true] with cfg := ⟨1, 1, .general, [⟨63, 511, 268435455⟩], []⟩ };
      ReadyToRun s ∧ SinkAccepts (1 + 1) s ∧ s.cfg.mode = .general ∧
      s.cfg.frames[0]? = some ⟨63, 511, 268435455⟩ ∧ FrameLegal ⟨63, 511, 268435455⟩) := by decide

/-- For GenOutputWritesTheTextOfOut, GenOutputIsTheRunOfSeqSteps and GenProceduresEndDoneOrFaulted: two chunks of one
word. -/
theorem witness_GenOutput :
    (let s := ready (drawsV176 ++ drawsV170) [true, true, true, true];
      ReadyToRun s ∧ s.inbox = [] ∧ 1 ≤ 2 ∧ 1 ≤ 1 ∧ SinkAccepts (2 * (1 + 1)) s ∧ s.cfg.mode = .fixed) ∧
    (let s := { ready [] [true, true] with cfg := ⟨1, 1, .general, [⟨1, 1, 1⟩], []⟩ };
      ReadyToRun s ∧ s.inbox = [] ∧ SinkAccepts (1 * (1 + 1)) s ∧ s.cfg.mode = .general ∧
      s.cfg.frames[0]? = some ⟨1, 1, 1⟩ ∧ FrameLegal ⟨1, 1, 1⟩) := by decide

/-- A sink that refuses the first write, the frame word of the first of two chunks, or the last write; in GENERAL mode
the triples used before the refusal are legal, the next one is not. -/
theorem witness_GenProceduresStopWhereTheyFault_sink :
    (ready drawsV170 [false]).sink.answers = List.replicate 0 true ++ false :: [] ∧ 0 < 2 * (1 + 1) ∧
    (ready drawsV170 [true, false]).sink.answers = List.replicate 1 true ++ false :: [] ∧ 1 / (1 + 1) = 0 ∧ 1 % (1 + 1) = 1 ∧
    (ready drawsV170 [true, true, true, false]).sink.answers = List.replicate 3 true ++ false :: [] ∧ 3 < 2 * (1 + 1) ∧
    (let s := { ready drawsV170 [true, true, false] with cfg := ⟨1, 2, .general, [⟨1, 1, 1⟩, ⟨0, 512, 0⟩], []⟩ };
      ReadyToRun s ∧ s.cfg.mode = .general ∧ s.sink.answers = List.replicate 2 true ++ false :: [] ∧ 2 < 2 * (1 + 1) ∧
      s.cfg.frames[0]? = some ⟨1, 1, 1⟩ ∧ FrameLegal ⟨1, 1, 1⟩ ∧ 0 * (1 + 1) + 1 ≤ 2 ∧ 2 < 1 * (1 + 1) + 1) := by decide

/-- P4, and a run whose second chunk has the bad triple. -/
theorem witness_GenProceduresStopWhereTheyFault_triple :
    (let s := { ready drawsV176 [true] with cfg := ⟨1, 2, .general, [⟨0, 512, 0⟩], []⟩ };
      ReadyToRun s ∧ s.cfg.frames[0]? = some ⟨0, 512, 0⟩ ∧ firstFailure (frameChecks ⟨0, 512, 0⟩) = some .hitCounter ∧
      SinkAccepts (0 * (1 + 1) + 1) s) ∧
    (let s := { ready drawsV176 [true, true, true] with cfg := ⟨1, 2, .general, [⟨1, 1, 1⟩, ⟨64, 512, 0⟩], []⟩ };
      s.cfg.frames[1]? = some ⟨64, 512, 0⟩ ∧ firstFailure (frameChecks ⟨64, 512, 0⟩) = some .qchipCollisionCount ∧
      FrameLegal ⟨1, 1, 1⟩ ∧ SinkAccepts (1 * (1 + 1) + 1) s) := by decide

/-- A chunk of two words: the second token and the space before it, and LINE_BREAK after the last token. -/
theorem witness_LineLengthOfAChunk :
    [0x852000c83141#48, 0xe8005000eb00#48].length = 1 + 1 ∧
    lineText ['\n'] [0x852000c83141#48, 0xe8005000eb00#48] = "852000c83141 e8005000eb00\n".toList := by decide

/-- One data word and a frame word; the last word is the frame word, the first is not. -/
theorem witness_FrameKindMarksChunkEnds :
    chunkWf 1 [0x852000c83141#48, 0xe8005000eb00#48] = true ∧
    [0x852000c83141#48, 0xe8005000eb00#48].length = 1 + 1 ∧
    [0x852000c83141#48, 0xe8005000eb00#48][1]? = some 0xe8005000eb00#48 ∧
    [0x852000c83141#48, 0xe8005000eb00#48][0]? = some 0x852000c83141#48 := by decide

theorem witness_ResetEventClearsSeqOnly : ({ runFaulted with inbox := [.reset] } : State).inbox = .reset :: [] := by
  decide

/-- A step that emits, a step that closes, and a reset. -/
theorem witness_EveryStepKeepsTheRunInvariants :
    (RunInv runStart ∧ (after (step runStart)).isSome = true) ∧
    (RunInv runFrame ∧ (after (step runFrame)).isSome = true) ∧
    (after (step { runFaulted with inbox := [.reset] })).isSome = true :=
  ⟨⟨inv_runStart, by decide⟩, ⟨inv_runFrame, by decide⟩, by decide⟩

theorem witness_OutIsAppendOnly :
    runFrame.inbox.head? ≠ some .reset ∧ (after (step runFrame)).isSome = true := by decide

/-- A pure operation presented after a fault. -/
theorem witness_FaultRecordIsSticky :
    let s := { runFaulted with inbox := [.present (encode .encFramek)] }
    s.fr = some ⟨.sinkFailure, .none, .frameStep⟩ ∧ s.inbox.head? ≠ some .reset ∧ (after (step s)).isSome = true := by
  decide

theorem witness_ConfigurationIsFixedAfterStart :
    runStart.phase ≠ .idle ∧ (after (step runStart)).isSome = true := by decide

theorem witness_EveryRunEnds : RunInv runStart ∧ runStart.phase = .run ∧ runStart.inbox = [] :=
  ⟨inv_runStart, by decide, by decide⟩

/-- IDLE, DONE and FAULTED for the first clause; RUN, DONE and FAULTED for the second. -/
theorem witness_NoStepOutsideARun :
    (RunInv State.reset ∧ State.reset.phase = .idle) ∧ (RunInv runDone ∧ runDone.phase = .done) ∧
    (RunInv runFaulted ∧ runFaulted.phase = .faulted) ∧ (RunInv runStart ∧ runStart.phase = .run) ∧
    runStart.phase ≠ .idle ∧ runDone.phase ≠ .idle ∧ runFaulted.phase ≠ .idle :=
  ⟨⟨inv_reset, by decide⟩, ⟨inv_runDone, by decide⟩, ⟨inv_runFaulted, by decide⟩, ⟨inv_runStart, by decide⟩, by decide⟩

/-- An outcome that is a word, one that is a fault, and one that is neither. -/
theorem witness_PureOperationsDependOnOperandsAlone :
    (pureOp .encFramek = true ∧ (after (exec .encFramek State.reset)).isSome = true) ∧
    (after (exec (.decData 0) runStart)).map (·.fault) = some true ∧
    (after (exec (.classify 0#48) runStart)).map (·.result) = some (.kind .none) := by decide

/-- The code ports after a fault and after a success. -/
theorem witness_FaultPortsCarryTheOutcome :
    (after (exec (.renderHex 0x1000000000000) State.reset)).map (·.faultCause) = some 2#3 ∧
    (after (exec (.decFrame 0x1000000000000) State.reset)).map (fun t => (t.faultCause, t.faultField)) =
      some (5#3, 16#5) ∧
    (after (exec .encFramek runFaulted)).map (fun t => (t.fault, t.faultCause)) = some (false, 0#3) := by decide

theorem witness_HostPreparesARun :
    ({ State.reset with inbox := [.configure ⟨1, 1, .fixed, [], []⟩] } : State).inbox =
      .configure ⟨1, 1, .fixed, [], []⟩ :: [] ∧
    ({ runStart with inbox := [.supplySource [1]] } : State).inbox = .supplySource [1] :: [] ∧
    ({ runDone with inbox := [.supplySink [true]] } : State).inbox = .supplySink [true] :: [] := by decide

/-- With another event pending: a data word before a reset, and a state in which SEQ has no step. -/
theorem witness_LetRunTakesTheStepOfSeq :
    (let s := { runStart with inbox := [.letRun, .reset] };
      s.inbox = .letRun :: [.reset] ∧ (after (step { s with inbox := [] })).isSome = true ∧
      (after (step s)).map (fun t => (t.widx, t.inbox.length)) = some (1, 1)) ∧
    (let s := { runDone with inbox := [.letRun] };
      (after (step { s with inbox := [] })).isNone = true ∧ (after (step s)).map (·.phase) = some .done) := by decide

end Sys2Proof.Tests
end

section
/-! PROOFS. The machine's step on what the host presents (R5). -/

namespace Sys2Proof.Machine

/-- Settles O5: of the three turns of `step_of_inbox`, a presentation at the head of the host's events leaves only
the one that decodes it. -/
theorem stepRunsThePresentedOperation : Obligations.StepRunsThePresentedOperation := by
  unfold Obligations.StepRunsThePresentedOperation
  intro s p rest hinbox
  rcases step_of_inbox s with ⟨hnil, -⟩ | ⟨q, rest', hq, hstep⟩ | ⟨e, rest', he, hnotPresent, -⟩
  · simp [hinbox] at hnil
  · obtain ⟨rfl, rfl⟩ : p = q ∧ rest = rest' := by simpa [hinbox] using hq
    exact ⟨fun i hdecode => by rw [hstep, hdecode], fun e hdecode => by rw [hstep, hdecode]⟩
  · obtain ⟨hpresent, -⟩ : .present p = e ∧ rest = rest' := by simpa [hinbox] using he
    exact absurd hpresent.symm (hnotPresent p)

end Sys2Proof.Machine
end

section
/-! PROOFS. What the state keeps: the invariants of R22 at reset and along every step, OUT append-only (R18), FR sticky
(R15), the configuration fixed (R16), no step outside a run (R14), and pure operations (R37). -/

namespace Sys2Proof.Machine

/-! ### The parts of a whole run -/

/-- Taking an event from the host's list is no part of a run. -/
theorem sameRun_withInbox (s : State) (rest : List HostEvent) : SameRun s { s with inbox := rest } :=
  ⟨rfl, rfl, rfl, rfl, rfl, rfl⟩

/-- Giving the caller the outcome of a run leaves the run itself alone (R162). -/
theorem finishRun_sameRun (r : Result) (s : State) : SameRun s (finishRun r s) := by
  unfold finishRun
  split <;> exact ⟨rfl, rfl, rfl, rfl, rfl, rfl⟩

/-- The start step emits nothing (R166). -/
@[simp] theorem seqStart_out (op : OpName) (s : State) : (seqStart op s).out = s.out := by
  rcases seqStart_cases op s with ⟨-, h⟩ | ⟨-, -, h⟩ | ⟨-, -, h⟩ <;> simp [h]

/-- A whole run keeps what its start step establishes and each step of SEQ keeps (R161, R162). -/
theorem runAll_keeps {P : State → Prop} (hadvance : ∀ s t, P s → seqAdvance s = some t → P t) {op : OpName}
    {c n : Nat} {s : State} (hstart : P (seqStart op { s with cfg := { s.cfg with c := c, n := n } })) :
    P (runAll op c n s) :=
  seqRun_keeps hadvance _ _ hstart

/-! ### The invariants of R22 -/

/-- The invariants speak of SEQ, FR, OUT and the configuration alone. -/
theorem RunInv.of_sameRun {s t : State} (hs : RunInv s) (h : SameRun s t) : RunInv t := by
  obtain ⟨_, _, _, _, _, _, _, _, _, _⟩ := hs
  constructor <;> simp only [h.widx, h.cidx, h.phase, h.fr, h.out, h.cfg] <;> assumption

/-- In IDLE the invariants say that SEQ, FR and OUT are as reset leaves them, whatever the configuration (R23). -/
theorem runInv_iff_of_idle {s : State} (hidle : s.phase = .idle) :
    RunInv s ↔ s.widx = 0 ∧ s.cidx = 0 ∧ s.fr = none ∧ s.out = OutStream.empty := by
  constructor
  · intro hs
    obtain ⟨hw, hc⟩ := hs.idle_start hidle
    have hfr : s.fr = none := by simpa [hidle] using hs.faulted_iff
    have hclosed : s.out.closed = [] := List.eq_nil_of_length_eq_zero (hs.closed_count.trans hc)
    have hopen : s.out.openChunk = [] := List.eq_nil_of_length_eq_zero (hs.open_count.trans hw)
    exact ⟨hw, hc, hfr, congrArg₂ OutStream.mk hclosed hopen⟩
  · rintro ⟨hw, hc, hfr, hout⟩
    constructor <;> simp [hw, hc, hfr, hout, hidle, OutStream.empty]

/-- In IDLE the invariants do not depend on the configuration (R217). -/
theorem RunInv.withConfig {s : State} (hs : RunInv s) (hidle : s.phase = .idle) (cfg : RunConfig) :
    RunInv { s with cfg := cfg } :=
  (runInv_iff_of_idle (s := { s with cfg := cfg }) hidle).mpr ((runInv_iff_of_idle hidle).mp hs)

/-- Reset establishes the invariants from every state (R211). -/
theorem runInv_applyReset (s : State) : RunInv (applyReset s) :=
  (runInv_iff_of_idle rfl).mpr ⟨rfl, rfl, rfl, rfl⟩

/-- A well-formed frame word after `n` well-formed data words makes a well-formed chunk (R22). -/
theorem chunkWf_append_frame {n : Nat} {ws : List Word} {w : Word} (hlen : ws.length = n)
    (hdata : ∀ x ∈ ws, wfData x = true) (hframe : wfFrameOrK w = true) : chunkWf n (ws ++ [w]) = true := by
  subst hlen
  simpa [chunkWf, hframe] using hdata

theorem EmittedData.runInv {s t : State} {w : Word} (h : EmittedData s t w) (hrun : s.phase = .run) (hs : RunInv s) :
    RunInv t := by
  rw [h.eq]
  exact
    { hs with
      widx_le := h.before
      open_count := by simp [hs.open_count]
      open_wf := by simpa [or_imp, forall_and, h.wf] using hs.open_wf
      idle_start := by simp [hrun]
      done_end := by simp [hrun] }

theorem ClosedChunk.runInv {s t : State} {w : Word} (h : ClosedChunk s t w) (hrun : s.phase = .run) (hfr : s.fr = none)
    (hs : RunInv s) : RunInv t := by
  have hinside := hs.run_inside hrun
  have hchunk : chunkWf s.cfg.n (s.out.openChunk ++ [w]) = true :=
    chunkWf_append_frame (hs.open_count.trans h.before) hs.open_wf h.wf
  have hmore : s.cidx + 1 ≠ s.cfg.c → s.cidx + 1 < s.cfg.c := by omega
  rw [h.eq]
  exact
    { widx_le := Nat.zero_le _
      cidx_le := hinside
      closed_count := by simp [hs.closed_count]
      closed_wf := List.forall_mem_append.mpr ⟨hs.closed_wf, List.forall_mem_singleton.mpr hchunk⟩
      open_count := rfl
      open_wf := by simp
      idle_start := by simp [hrun, ite_eq_iff]
      run_inside := by simpa [hrun, ite_eq_iff] using hmore
      done_end := by simp [hrun]
      faulted_iff := by simp [hrun, hfr, ite_eq_iff] }

theorem FaultedStep.runInv {s t : State} {f : FaultInfo} {op : OpName} (h : FaultedStep s t f op) (hs : RunInv s) :
    RunInv t where
  widx_le := by simpa only [h.widx, h.cfg] using hs.widx_le
  cidx_le := by simpa only [h.cidx, h.cfg] using hs.cidx_le
  closed_count := by simpa only [h.out, h.cidx] using hs.closed_count
  closed_wf := by simpa only [h.out, h.cfg] using hs.closed_wf
  open_count := by simpa only [h.out, h.widx] using hs.open_count
  open_wf := by simpa only [h.out] using hs.open_wf
  idle_start := by simp [h.phase]
  run_inside := by simp [h.phase]
  done_end := by simp [h.phase]
  faulted_iff := by simp [h.phase, h.fr]

/-- A step of SEQ keeps the invariants (R164, R165, R170). -/
theorem RunInv.seqAdvance {s t : State} (hs : RunInv s) (h : seqAdvance s = some t) : RunInv t := by
  obtain ⟨hrun, hfr, ⟨w, h⟩ | ⟨w, h⟩ | ⟨f, op, h⟩⟩ := seqAdvance_cases h
  · exact h.runInv hrun hs
  · exact h.runInv hrun hfr hs
  · exact h.runInv hs

/-- The start step keeps the invariants (R166). -/
theorem RunInv.seqStart {s : State} (hs : RunInv s) (hidle : s.phase = .idle) (op : OpName) :
    RunInv (seqStart op s) := by
  obtain ⟨hw, hc, hfr, hout⟩ := (runInv_iff_of_idle hidle).mp hs
  rcases seqStart_cases op s with ⟨-, h⟩ | ⟨-, -, h⟩ | ⟨hpos, -, h⟩
  · rw [h]; exact (faultedStep_of_seqFault _ _ hfr rfl rfl rfl rfl rfl).runInv hs
  · rw [h]; exact (faultedStep_of_seqFault _ _ hfr rfl rfl rfl rfl rfl).runInv hs
  · rw [h]
    constructor <;> simp [hfr, hout, OutStream.empty, Nat.pos_iff_ne_zero, hpos]

/-- A whole run from IDLE keeps the invariants (R161, R162). -/
theorem RunInv.runAll {s : State} (hs : RunInv s) (hidle : s.phase = .idle) (op : OpName) (c n : Nat) :
    RunInv (runAll op c n s) :=
  runAll_keeps (fun _ _ => RunInv.seqAdvance)
    ((hs.withConfig hidle { s.cfg with c := c, n := n }).seqStart hidle op)

/-- Settles O48: each case of `step_cases` keeps the invariants; in IDLE they leave the configuration free, so the host
and the procedures may set it. -/
theorem everyStepKeepsTheRunInvariants : Obligations.EveryStepKeepsTheRunInvariants := by
  intro s t hinv hstep
  obtain ⟨rest, u, rfl, h⟩ := step_cases hstep
  have hu : RunInv { s with inbox := rest } := hinv.of_sameRun (sameRun_withInbox s rest)
  rcases h with h | h | ⟨-, rfl⟩ | ⟨hidle, cfg, rfl⟩ | ⟨hready, rfl⟩ | ⟨hready, r, op, c, n, rfl⟩
  · exact hu.of_sameRun h
  · exact hu.seqAdvance h
  · exact runInv_applyReset _
  · exact hu.withConfig hidle cfg
  · exact hu.seqStart (startable_iff.mp hready).1 .start
  · have hidle := (startable_iff.mp hready).1
    exact (hu.runAll hidle op c n).of_sameRun (finishRun_sameRun r _)

/-! ### OUT is append-only -/

/-- OUT has only grown: it begins with the words and the closed chunks that it held before (R18). -/
def OutGrows (o o' : OutStream) : Prop := emitted o <+: emitted o' ∧ o.closed <+: o'.closed

theorem outGrows_of_eq {o o' : OutStream} (h : o' = o) : OutGrows o o' := by
  simp [h, OutGrows]

theorem OutGrows.trans {o o' o'' : OutStream} (h : OutGrows o o') (h' : OutGrows o' o'') : OutGrows o o'' :=
  ⟨h.1.trans h'.1, h.2.trans h'.2⟩

/-- A step of SEQ emits at the end of OUT, or nothing (R32). -/
theorem seqAdvance_outGrows {s t : State} (h : seqAdvance s = some t) : OutGrows s.out t.out := by
  obtain ⟨-, -, ⟨w, h⟩ | ⟨w, h⟩ | ⟨f, op, h⟩⟩ := seqAdvance_cases h
  · simp [h.eq, OutGrows, emitted]
  · simp [h.eq, OutGrows, emitted]
  · exact outGrows_of_eq h.out

/-- Settles O49: of the cases of `step_cases` only a step of SEQ, alone or in a whole run, changes OUT without a
reset. -/
theorem outIsAppendOnly : Obligations.OutIsAppendOnly := by
  intro s t hnoReset hstep
  change OutGrows s.out t.out
  obtain ⟨rest, u, rfl, h⟩ := step_cases hstep
  rcases h with h | h | ⟨hreset, -⟩ | ⟨-, cfg, rfl⟩ | ⟨-, rfl⟩ | ⟨-, r, op, c, n, rfl⟩
  · exact outGrows_of_eq h.out
  · exact (seqAdvance_outGrows h :)
  · exact absurd hreset hnoReset
  · exact outGrows_of_eq rfl
  · exact outGrows_of_eq (seqStart_out _ _)
  · rw [(finishRun_sameRun r _).out]
    exact runAll_keeps (P := fun v => OutGrows s.out v.out) (fun _ _ hv h => hv.trans (seqAdvance_outGrows h))
      (outGrows_of_eq (seqStart_out _ _))

/-! ### The fault record and the configuration -/

/-- Settles O50: SEQ and every start wait for FR to be none. -/
theorem faultRecordIsSticky : Obligations.FaultRecordIsSticky := by
  intro s t r hfr hnoReset hstep
  obtain ⟨rest, u, rfl, h⟩ := step_cases hstep
  have hset : ({ s with inbox := rest } : State).fr ≠ none := by simp [hfr]
  rcases h with h | h | ⟨hreset, -⟩ | ⟨-, cfg, rfl⟩ | ⟨hready, -⟩ | ⟨hready, -⟩
  · exact ⟨h.fr.trans hfr, h.out⟩
  · exact absurd (seqAdvance_cases h).2.1 hset
  · exact absurd hreset hnoReset
  · exact ⟨hfr, rfl⟩
  · exact absurd (startable_iff.mp hready).2 hset
  · exact absurd (startable_iff.mp hready).2 hset

/-- Settles O51: the configuration is written only by the configure event and the procedures, both in IDLE. -/
theorem configurationIsFixedAfterStart : Obligations.ConfigurationIsFixedAfterStart := by
  intro s t hstarted hstep
  obtain ⟨rest, u, rfl, h⟩ := step_cases hstep
  rcases h with h | h | ⟨-, rfl⟩ | ⟨hidle, -⟩ | ⟨hready, -⟩ | ⟨hready, -⟩
  · exact h.cfg
  · exact (seqAdvance_keeps h).1
  · rfl
  · exact absurd hidle hstarted
  · exact absurd (startable_iff.mp hready).1 hstarted
  · exact absurd (startable_iff.mp hready).1 hstarted

/-! ### No step outside a run -/

/-- With nothing presented outside a run the machine is stuck (R14, U12; log 21). -/
theorem step_of_not_run {s : State} (h : s.phase ≠ .run) :
    step { s with inbox := [] } = .fault (stuckReason s) := by
  have hnone : seqAdvance { s with inbox := [] } = none := seqAdvance_none h
  change seqTurn { s with inbox := [] } = _
  rw [seqTurn, hnone]
  rfl

/-- A run that was started before needs a reset to start again (U12). -/
theorem not_startable {s : State} (h : s.phase ≠ .idle) : ¬ startable s = true :=
  fun hs => h (startable_iff.mp hs).1

/-- Settles O53: outside RUN SEQ has no step, and the invariants tie FR, which `stuckReason` reads first, to the phase;
outside IDLE no start is taken. -/
theorem noStepOutsideARun : Obligations.NoStepOutsideARun := by
  intro s
  refine ⟨fun hinv hphase => ?_, fun c n rest hphase => ⟨?_, ?_, ?_⟩⟩
  · rw [step_of_not_run hphase]
    cases hp : s.phase with
    | run => exact absurd hp hphase
    | idle | done | faulted => simp only [stuckReason, ← hinv.faulted_iff, hp, reduceCtorEq, if_false, if_true]
  · exact if_neg (not_startable hphase)
  · exact if_neg (not_startable hphase)
  · exact if_neg (not_startable hphase)

/-! ### Pure operations -/

/-- The ports and the caller's outcome follow the outcome alone, but for a `word` port without a word (R12, R191). -/
theorem deliver_agrees (e : Except FaultInfo Result) (s s' : State) :
    (deliver e s').result = (deliver e s).result ∧ (deliver e s').fault = (deliver e s).fault ∧
    (deliver e s').faultCause = (deliver e s).faultCause ∧ (deliver e s').faultField = (deliver e s).faultField ∧
    ∀ w, (deliver e s).result = .word w → (deliver e s').word = (deliver e s).word := by
  cases e with
  | error f => simp [deliver]
  | ok r => simp +contextual [deliver, wordOfResult]

/-- Settles O54: a pure operation delivers what its operands alone decide. -/
theorem pureOperationsDependOnOperandsAlone : Obligations.PureOperationsDependOnOperandsAlone := by
  intro i s s' t hpure hexec
  obtain ⟨e, rfl, hany⟩ := exec_pure hpure hexec
  obtain ⟨hresult, hfault, hcause, hfield, hword⟩ := deliver_agrees e s s'
  exact ⟨deliver_onlyOutcome e s, _, hany s', hresult, hfault, hcause, hfield, fun _ => hword⟩

/-! ### The state after reset -/

/-- Settles O45: the fields of the reset state. -/
theorem resetLeavesTheStatedValues : Obligations.ResetLeavesTheStatedValues :=
  ⟨rfl, rfl, rfl, rfl, rfl, rfl, rfl, rfl⟩

/-- Settles O47: the reset state is in IDLE with SEQ, FR and OUT cleared. -/
theorem runInvariantsHoldAtReset : Obligations.RunInvariantsHoldAtReset :=
  runInv_applyReset State.reset

end Sys2Proof.Machine
end

section
/-! PROOFS. The text of a line of OUT (R43): tokens of 12 characters, one space after each but the last, so that word
`i` begins at character `13 * i`. -/

namespace Sys2Proof.Machine

/-- A token has no space among its characters (R136). -/
theorem hexToken_filter_space (v : Nat) : (hexToken v).filter (· == ' ') = [] := by
  rw [List.filter_eq_nil_iff]
  intro ch hch
  obtain ⟨d, hd, rfl⟩ := mem_hexToken hch
  obtain ⟨-, -, hspace⟩ := hexDigit_spec d hd
  simp [hspace]

/-- A word with others after it: its token, one space, and the line of the others. -/
theorem joinTokens_cons (w : Word) {ws : List Word} (h : ws ≠ []) :
    joinTokens (w :: ws) = hexToken w.toNat ++ ' ' :: joinTokens ws := by
  obtain ⟨x, xs, rfl⟩ := List.exists_cons_of_ne_nil h
  rfl

/-- A line begins with the token of its first word. -/
theorem joinTokens_take_token (w : Word) (ws : List Word) :
    (joinTokens (w :: ws)).take 12 = hexToken w.toNat := by
  cases ws with
  | nil => exact List.take_of_length_le (hexToken_length _).le
  | cons x xs => exact List.take_left' (hexToken_length _)

/-- Past the first `13 * i` characters stands the line of the words from `i` on. -/
theorem joinTokens_drop {ch : List Word} {i : Nat} (hi : i < ch.length) :
    (joinTokens ch).drop (13 * i) = joinTokens (ch.drop i) := by
  induction i generalizing ch with
  | zero => rfl
  | succ i ih =>
    obtain ⟨w, ws, rfl⟩ := List.exists_cons_of_length_pos (by omega : 0 < ch.length)
    have hws : i < ws.length := by simpa using hi
    have hfirst : (hexToken w.toNat ++ [' ']).length = 13 := by simp
    calc (joinTokens (w :: ws)).drop (13 * (i + 1))
        = (((hexToken w.toNat ++ [' ']) ++ joinTokens ws).drop 13).drop (13 * i) := by
          rw [joinTokens_cons w (List.ne_nil_of_length_pos (by omega)), List.drop_drop, Nat.mul_succ, Nat.add_comm]
          simp
      _ = joinTokens (ws.drop i) := by rw [List.drop_left' hfirst, ih hws]

/-- The length of a line of `n + 1` words, and how many spaces are in it: one between each two tokens. -/
theorem joinTokens_length_and_spaces {n : Nat} {ch : List Word} (h : ch.length = n + 1) :
    (joinTokens ch).length = 13 * n + 12 ∧ ((joinTokens ch).filter (· == ' ')).length = n := by
  induction n generalizing ch with
  | zero =>
    obtain ⟨w, rfl⟩ := List.length_eq_one_iff.mp h
    simp [joinTokens, hexToken_filter_space]
  | succ n ih =>
    obtain ⟨w, ws, rfl⟩ := List.exists_cons_of_length_eq_add_one h
    have hws : ws.length = n + 1 := by simpa using h
    obtain ⟨hlength, hspaces⟩ := ih hws
    rw [joinTokens_cons w (List.ne_nil_of_length_eq_add_one hws)]
    simp only [List.length_append, List.length_cons, List.filter_append, List.filter_cons_of_pos, beq_self_eq_true,
      hexToken_length, hexToken_filter_space, List.length_nil, hlength, hspaces]
    omega

/-- The token of word `i` stands at character `13 * i`. -/
theorem joinTokens_token_at {ch : List Word} {i : Nat} {w : Word} (h : ch[i]? = some w) :
    ((joinTokens ch).drop (13 * i)).take 12 = hexToken w.toNat := by
  obtain ⟨hi, rfl⟩ := List.getElem?_eq_some_iff.mp h
  rw [joinTokens_drop hi, List.drop_eq_getElem_cons hi, joinTokens_take_token]

/-- After the token of every word but the last stands a space. -/
theorem joinTokens_space_at {ch : List Word} {i : Nat} (hi : i + 1 < ch.length) :
    (joinTokens ch)[13 * i + 12]? = some ' ' := by
  have hmore : ch.drop (i + 1) ≠ [] := List.ne_nil_of_length_pos (by rw [List.length_drop]; omega)
  rw [← List.getElem?_drop, joinTokens_drop (by omega), List.drop_eq_getElem_cons (by omega : i < ch.length),
    joinTokens_cons _ hmore, List.getElem?_append_right (hexToken_length _).le, hexToken_length]
  rfl

/-- Settles O43: LINE_BREAK follows the joined tokens, so each claim is one about `joinTokens`. -/
theorem lineLengthOfAChunk : Obligations.LineLengthOfAChunk := by
  intro n ch lineBreak hch
  obtain ⟨hlength, hspaces⟩ := joinTokens_length_and_spaces hch
  have htake : (lineText lineBreak ch).take (13 * n + 12) = joinTokens ch := List.take_left' hlength
  refine ⟨by simp [lineText, hlength], fun i w hw => ?token, fun i hi => ?space, ?spaces, htake,
    List.drop_left' hlength⟩
  case token =>
    obtain ⟨hi, -⟩ := List.getElem?_eq_some_iff.mp hw
    rw [lineText, List.drop_append_of_le_length (by omega),
      List.take_append_of_le_length (by rw [List.length_drop]; omega)]
    exact joinTokens_token_at hw
  case space =>
    rw [lineText, List.getElem?_append_left (by omega)]
    exact joinTokens_space_at (by omega)
  case spaces => rw [htake, hspaces]

end Sys2Proof.Machine
end

section
/-! PROOFS. The decoder and the encoder (R58, R61, R62): what a bare word and the select inputs decode to, the operands
read back off the ports, and the round trip of every operation. -/

namespace Sys2Proof.Machine

/-! ### A bare word -/

/-- CLASSIFY's kind by the marker bits 47..45 (R58). -/
theorem kindOfWord_eq_markers (w : Word) :
    kindOfWord w =
      if w.getLsbD 47 && w.getLsbD 46 && w.getLsbD 45 then .frame else if w.getLsbD 47 then .data else .none := by
  have hframe : (w.getLsbD 47 && w.getLsbD 46 && w.getLsbD 45) = decide (slice w.toNat 47 45 = 7) :=
    markers_eq_slice w.toNat
  have hdata : w.getLsbD 47 = decide (slice w.toNat 47 47 = 1) := testBit_eq_slice w.toNat 47
  rw [kindOfWord, hframe, hdata]
  simp only [decide_eq_true_eq]

/-- The sentinel literal, as a number or as a word (R103). -/
theorem toNat_eq_frameSentinel_iff (w : Word) : w.toNat = Config.frameSentinel ↔ w = 0xe8005000eb00#48 :=
  BitVec.toNat_inj (y := 0xe8005000eb00#48)

theorem decodeWord_frame {w : Word} (hs : w.toNat ≠ Config.frameSentinel) (hk : kindOfWord w = .frame) :
    decodeWord w = .ok (.decFrame w.toNat) := by
  simp [decodeWord, hs, hk]

theorem decodeWord_data {w : Word} (hs : w.toNat ≠ Config.frameSentinel) (hk : kindOfWord w = .data) :
    decodeWord w = .ok (.decData w.toNat) := by
  simp [decodeWord, hs, hk]

theorem decodeWord_none {w : Word} (hs : w.toNat ≠ Config.frameSentinel) (hk : kindOfWord w = .none) :
    decodeWord w = .error .wordOfNoKind := by
  simp [decodeWord, hs, hk]

/-- Settles O3: past the sentinel the word's kind decides, and its kind is read off the marker bits. -/
theorem bareWordDecodesByItsMarkers : Obligations.BareWordDecodesByItsMarkers := by
  intro w
  by_cases hsentinel : w = 0xe8005000eb00#48
  · subst hsentinel
    rfl
  have hs : w.toNat ≠ Config.frameSentinel := mt (toNat_eq_frameSentinel_iff w).mp hsentinel
  have hkind := kindOfWord_eq_markers w
  rw [if_neg hsentinel]
  split at hkind
  · next hframe => rw [if_pos hframe]; exact decodeWord_frame hs hkind
  · next hframe =>
    rw [if_neg hframe]
    split at hkind
    · next hdata => rw [if_pos hdata]; exact decodeWord_data hs hkind
    · next hdata => rw [if_neg hdata]; exact decodeWord_none hs hkind

/-- What a bare word can decode to (R58, R61). -/
theorem decode_word_cases {w : Word} {i : Instr} (h : decode (.word w) = .ok i) :
    i = .frameSentinel ∨ i = .decFrame w.toNat ∨ i = .decData w.toNat := by
  rw [bareWordDecodesByItsMarkers w] at h
  split_ifs at h <;> cases h <;> simp

/-! ### The select inputs and the ports -/

/-- What the select inputs can choose (R62). -/
theorem decodeSelect_cases (op : BitVec 2) (p : PortBits) :
    decodeSelect op p = .encData p.data ∨ decodeSelect op p = .encFrame p.frame ∨ decodeSelect op p = .encFramek := by
  unfold decodeSelect
  split_ifs <;> simp

/-- Settles O2: the four select values one by one, then what any select value and any word can decode to. -/
theorem operationSelectDecodes : Obligations.OperationSelectDecodes := by
  refine ⟨fun p => ⟨rfl, rfl, rfl, rfl⟩, fun op p i h => ?_, fun w i h => decode_word_cases h⟩
  obtain rfl : decodeSelect op p = i := Except.ok.inj h
  exact decodeSelect_cases op p

/-- The data ports hold the operands that fit them (R11). -/
theorem portBits_data {d : DataPorts} (h : d.fit = true) (f : FrameTriple) : (portBits d f).data = d := by
  simp only [DataPorts.fit, Bool.and_eq_true, decide_eq_true_eq] at h
  obtain ⟨⟨⟨⟨⟨⟨haddress, harb⟩, hpu⟩, hleadC⟩, hleadF⟩, htrailC⟩, htrailF⟩ := h
  have hvalid : ((if d.puValid then 1#1 else 0#1) == 1#1) = d.puValid := by cases d.puValid <;> rfl
  simp only [portBits, PortBits.data, BitVec.toNat_ofNat, hvalid, Nat.mod_eq_of_lt haddress, Nat.mod_eq_of_lt harb,
    Nat.mod_eq_of_lt hpu, Nat.mod_eq_of_lt hleadC, Nat.mod_eq_of_lt hleadF, Nat.mod_eq_of_lt htrailC,
    Nat.mod_eq_of_lt htrailF]

/-- The counter ports hold the counters that fit them (R11). -/
theorem portBits_frame (d : DataPorts) {f : FrameTriple} (h : f.fit = true) : (portBits d f).frame = f := by
  simp only [FrameTriple.fit, Bool.and_eq_true, decide_eq_true_eq] at h
  obtain ⟨⟨hqchip, hhit⟩, hframe⟩ := h
  simp only [portBits, PortBits.frame, BitVec.toNat_ofNat, Nat.mod_eq_of_lt hqchip, Nat.mod_eq_of_lt hhit,
    Nat.mod_eq_of_lt hframe]

/-! ### Encode, then decode -/

/-- A value presented as a word or by name is read back when the words of its kind decode to the operation. -/
theorem decode_encodeWordOr {v : Nat} {k : Kind} {i : Instr}
    (h : ∀ w : Word, w.toNat = v → w.toNat ≠ Config.frameSentinel → kindOfWord w = k → decodeWord w = .ok i) :
    decode (encodeWordOr v k i) = .ok i := by
  unfold encodeWordOr
  split
  · next hword =>
    obtain ⟨hlt, hs, hk⟩ := hword
    have hv : (BitVec.ofNat 48 v).toNat = v := (BitVec.toNat_ofNat v 48).trans (Nat.mod_eq_of_lt hlt)
    exact h _ hv (by rwa [hv]) hk
  · rfl

/-- Settles O1: operands come back off the ports that they fit, values off the words of their kind, and a call is
the operation itself. -/
theorem decodeOfEncodeIsTheOperation : Obligations.DecodeOfEncodeIsTheOperation := by
  intro i hwf
  cases i with
  | encData p =>
    have hfit : p.fit = true := hwf
    calc decode (encode (.encData p))
        = decode (.select 0b00#2 (portBits p zeroFrameTriple)) := by rw [encode, if_pos hfit]
      _ = .ok (.encData (portBits p zeroFrameTriple).data) := rfl
      _ = .ok (.encData p) := by rw [portBits_data hfit]
  | encFrame t =>
    have hfit : t.fit = true := hwf
    calc decode (encode (.encFrame t))
        = decode (.select 0b10#2 (portBits zeroDataPorts t)) := by rw [encode, if_pos hfit]
      _ = .ok (.encFrame (portBits zeroDataPorts t).frame) := rfl
      _ = .ok (.encFrame t) := by rw [portBits_frame _ hfit]
  | encFramek => rfl
  | decFrame v => exact decode_encodeWordOr fun w hv hs hk => hv ▸ decodeWord_frame hs hk
  | decData v => exact decode_encodeWordOr fun w hv hs hk => hv ▸ decodeWord_data hs hk
  | frameSentinel => rfl
  | muxSel | pack | unpack | classify | renderHex | sample | genChunk | genOutput => rfl

/-! ### The opcode table's rows and the sentinel row -/

/-- Settles O4: the select rows by their two bits, then the sentinel, a frame word, a data word and a word of kind
NONE. -/
theorem tableWordsDecode : Obligations.TableWordsDecode :=
  ⟨rfl, rfl, rfl, by decide, by decide, by decide, by decide⟩

/-- The counters and the gap of the sentinel literal (R107). -/
theorem decFrame_frameSentinel : decFrame Config.frameSentinel = .ok (⟨0, 5, 60160⟩, 1) := by decide

/-- An outcome that is no fault is delivered with the fault ports at 0 (R12). -/
theorem deliver_ok_succeeded (r : Result) (s : State) : Succeeded r (deliver (.ok r) s) := ⟨rfl, rfl, rfl, rfl⟩

/-- Settles O21: the row delivers DEC.FRAME's reading of the literal. -/
theorem sentinelRowDecodesTheLiteral : Obligations.SentinelRowDecodesTheLiteral := by
  intro s
  have hexec : exec .frameSentinel s = .next (deliver (.ok (.frame ⟨0, 5, 60160⟩ 1)) s) := by
    simp only [exec, execFrameSentinel, decFrame_frameSentinel]
    rfl
  exact ⟨_, hexec, deliver_ok_succeeded _ s, deliver_onlyOutcome _ s⟩

end Sys2Proof.Machine
end

section
/-! PROOFS. The data-word encoder and its decoder (R80 to R90): what ENC.DATA answers and leaves alone, the image and
the number of the data words, the round trips, and both encoders as PACK of their layouts (R117). -/

namespace Sys2Proof.Machine

/-! ### The image of ENC.DATA -/

/-- DEC.DATA's reading of a well-formed word is the tuple that ENC.DATA sends to it (R87, R90). -/
theorem encData_dataTupleOf {w : Word} (h : wfData w = true) :
    DataLegal (dataTupleOf w.toNat) ∧ encData (dataTupleOf w.toNat) = .ok w := by
  obtain ⟨hlegal, hsum⟩ := dataTupleOf_legal w.isLt h
  exact ⟨hlegal, encData_ok_iff.mpr ⟨hlegal, hsum.symm⟩⟩

/-- The tuple that ENC.DATA sends to a word is DEC.DATA's reading of the word (R87, R90). -/
theorem dataTupleOf_of_encData {t : DataTuple} {w : Word} (h : encData t = .ok w) : dataTupleOf w.toNat = t := by
  obtain ⟨hlegal, hsum⟩ := encData_ok_iff.mp h
  rw [hsum, dataTupleOf_dataSum hlegal]

/-- ENC.DATA is injective on legal operands (R87). -/
theorem encData_injective {t t' : DataTuple} (h : DataLegal t) (he : encData t = encData t') : t = t' := by
  have hword := encData_of_legal h
  rw [← dataTupleOf_of_encData hword, dataTupleOf_of_encData (he ▸ hword)]

/-- The well-formed data words are the legal operand tuples, by DEC.DATA and ENC.DATA (R87, R90). -/
def dataWordEquiv : { w : Word // wfData w = true } ≃ { t : DataTuple // DataLegal t } where
  toFun w := ⟨dataTupleOf w.1.toNat, (encData_dataTupleOf w.2).1⟩
  invFun t := ⟨BitVec.ofNat 48 (dataSum t.1), wfData_of_encData (encData_of_legal t.2)⟩
  left_inv w := Subtype.ext <| by
    obtain ⟨hlegal, hword⟩ := encData_dataTupleOf w.2
    exact Except.ok.inj ((encData_of_legal hlegal).symm.trans hword)
  right_inv t := Subtype.ext (dataTupleOf_of_encData (encData_of_legal t.2))

/-- The ranges of R80, operand by operand; an absent pileup is the value outside its five positions (R57). -/
abbrev DataRanges : Type := Fin 90 × Fin 5 × Option (Fin 5) × Fin 4096 × Fin 32 × Fin 64 × Fin 32

/-- The operand tuple of one choice from each range. -/
def tupleOfRanges : DataRanges → DataTuple
  | (a, b, p, lc, lf, tc, tf) => ⟨a, b, p.map Fin.val, lc, lf, tc, tf⟩

/-- A choice from each range is a legal tuple (R80). -/
theorem tupleOfRanges_legal (r : DataRanges) : DataLegal (tupleOfRanges r) := by
  obtain ⟨a, b, p, lc, lf, tc, tf⟩ := r
  have hp : ∀ q ∈ p.map Fin.val, q ≤ 4 := by
    rintro q hq
    obtain ⟨i, -, rfl⟩ := Option.mem_map.mp hq
    omega
  refine ⟨?_, ?_, hp, ?_, ?_, ?_, ?_⟩ <;> simp only [tupleOfRanges] <;> omega

theorem tupleOfRanges_injective : Function.Injective tupleOfRanges := by
  rintro ⟨a, b, p, lc, lf, tc, tf⟩ ⟨a', b', p', lc', lf', tc', tf'⟩ h
  simp only [tupleOfRanges, DataTuple.mk.injEq, Fin.val_inj, (Option.map_injective Fin.val_injective).eq_iff] at h
  obtain ⟨rfl, rfl, rfl, rfl, rfl, rfl, rfl⟩ := h
  rfl

/-- Every legal tuple is a choice from each range (R80). -/
theorem exists_tupleOfRanges {t : DataTuple} (h : DataLegal t) : ∃ r, tupleOfRanges r = t := by
  obtain ⟨a, b, p, lc, lf, tc, tf⟩ := t
  obtain ⟨ha, hb, hp, hlc, hlf, htc, htf⟩ := h
  obtain ⟨p', hp'⟩ : ∃ p' : Option (Fin 5), p'.map Fin.val = p := by
    cases p with
    | none => exact ⟨none, rfl⟩
    | some q => exact ⟨some ⟨q, Nat.lt_succ_of_le (hp q rfl)⟩, rfl⟩
  refine ⟨(⟨a, Nat.lt_succ_of_le ha⟩, ⟨b, Nat.lt_succ_of_le hb⟩, p', ⟨lc, Nat.lt_succ_of_le hlc⟩,
    ⟨lf, Nat.lt_succ_of_le hlf⟩, ⟨tc, Nat.lt_succ_of_le htc⟩, ⟨tf, Nat.lt_succ_of_le htf⟩), ?_⟩
  rw [tupleOfRanges, hp']

/-- The legal tuples, counted by their ranges (R80, R87). -/
theorem card_dataLegal : Nat.card { t : DataTuple // DataLegal t } = 724775731200 := by
  have hbij : Function.Bijective fun r : DataRanges =>
      (⟨tupleOfRanges r, tupleOfRanges_legal r⟩ : { t : DataTuple // DataLegal t }) :=
    ⟨fun _ _ h => tupleOfRanges_injective (Subtype.ext_iff.mp h), fun ⟨t, ht⟩ => by
      obtain ⟨r, rfl⟩ := exists_tupleOfRanges ht
      exact ⟨r, rfl⟩⟩
  rw [← Nat.card_eq_of_bijective _ hbij]
  simp [Nat.card_eq_fintype_card]

/-- Settles O10: a well-formed word comes from DEC.DATA's reading of it and from no other tuple, and the tuples are
counted in place of the words. -/
theorem dataWordImageIsWfData : Obligations.DataWordImageIsWfData := by
  refine ⟨fun t w => wfData_of_encData, fun w hw => ?_, fun t t' ht _ => encData_injective ht, ?_, fun w hw h7 => ?_⟩
  · exact ⟨dataTupleOf w.toNat, encData_dataTupleOf hw, fun t ht => (dataTupleOf_of_encData ht.2).symm⟩
  · rw [Nat.card_congr dataWordEquiv, card_dataLegal]
  · have hdata := kind_of_wfData hw
    simp [kindOfWord, h7] at hdata

/-- Settles O11: both trips go through DEC.DATA's reading of the word. -/
theorem dataRoundTrips : Obligations.DataRoundTrips := by
  refine ⟨fun t ht => ?_, fun w hw => ?_⟩
  · have hword := encData_of_legal ht
    refine ⟨_, hword, ?_⟩
    rw [decData_of_wf (BitVec.isLt _) (wfData_of_encData hword), dataTupleOf_of_encData hword]
  · exact ⟨_, decData_of_wf w.isLt hw, (encData_dataTupleOf hw).2⟩

/-! ### Encoders as PACK of their layouts -/

theorem dataLayout_proper : properLayout dataLayout = true := by decide

theorem frameLayout_proper : properLayout frameLayout = true := by decide

/-- A one-hot mask passes PACK's check of the arbiter lane exactly for the positions 0..4 (R56, R81). -/
theorem oneHot_lane_check (p : Nat) :
    (decide (1 ≤ 2 ^ p) && decide (2 ^ p ≤ 16) && condCheck .oneBit (2 ^ p)) = decide (p ≤ 4) := by
  have hle : 2 ^ p ≤ 16 ↔ p ≤ 4 := Nat.pow_le_pow_iff_right (n := p) (m := 4) Nat.one_lt_two
  have hmem : p ≤ 4 → 2 ^ p ∈ oneHots := fun h => mem_oneHots.mpr ⟨p, by omega, rfl⟩
  by_cases h : p ≤ 4
  · simp [condCheck, hle, h, hmem h, Nat.one_le_two_pow]
  · simp [hle, h]

/-- A pileup mask passes PACK's check of its lane exactly when it is absent or a position 0..4 (R57, R81). -/
theorem pileup_lane_check (o : Option Nat) :
    (decide (0 ≤ o.elim 0 fun p => 2 ^ p) && decide ((o.elim 0 fun p => 2 ^ p) ≤ 16) &&
      condCheck .atMostOneBit (o.elim 0 fun p => 2 ^ p)) = decide (∀ p ∈ o, p ≤ 4) := by
  cases o with
  | none => rfl
  | some p =>
    have h := oneHot_lane_check p
    rw [Bool.eq_iff_iff] at h ⊢
    rw [Option.elim_some]
    simpa [condCheck, Nat.one_le_two_pow] using h

/-- The first bad field of DATA_LAYOUT is that of ENC.DATA's own checks: the constants pass, and the masks pass with
their positions (R81, R117). -/
theorem packRangeFault_dataLayout (d : DataTuple) :
    packRangeFault dataLayout (dataPackValues d) = dataRangeFault d := by
  have hchecks : packChecks dataLayout (dataPackValues d) =
      [ (.dataSelector, true), (.address, decide (0 ≤ d.address) && decide (d.address ≤ 89) && true),
        (.addressArbiter, decide (1 ≤ 2 ^ d.arbPos) && decide (2 ^ d.arbPos ≤ 16) && condCheck .oneBit (2 ^ d.arbPos)),
        (.addressPileup, decide (0 ≤ d.pileup.elim 0 fun p => 2 ^ p) &&
          decide ((d.pileup.elim 0 fun p => 2 ^ p) ≤ 16) &&
          condCheck .atMostOneBit (d.pileup.elim 0 fun p => 2 ^ p)),
        (.leadingCoarseTimeSelector, true),
        (.leadingCoarseTime, decide (0 ≤ d.leadCoarse) && decide (d.leadCoarse ≤ 4095) && true),
        (.leadingFineTime, decide (0 ≤ d.leadFine) && decide (d.leadFine ≤ 31) && true),
        (.trailingCoarseTimeSelector, true),
        (.trailingCoarseTime, decide (0 ≤ d.trailCoarse) && decide (d.trailCoarse ≤ 63) && true),
        (.trailingFineTime, decide (0 ≤ d.trailFine) && decide (d.trailFine ≤ 31) && true) ] := rfl
  rw [packRangeFault_eq_first dataLayout_proper, dataRangeFault_eq_first, hchecks, dataChecks, oneHot_lane_check,
    pileup_lane_check]
  simp [firstFailure_cons]

/-- The placement of DATA_LAYOUT is ENC.DATA's shift-and-OR composition, whatever the operands (R82, R117). -/
theorem packAcc_dataLayout (d : DataTuple) : packAcc (dataPackValues d) dataLayout 0 = dataWordNat d := by
  rw [dataWordNat, onehot_eq, pileupMask_eq, ← Nat.zero_or (1 <<< 47)]
  rfl

/-- The first bad counter of FRAME_LAYOUT is that of ENC.FRAME's own checks (R101, R117). -/
theorem packRangeFault_frameLayout (f : FrameTriple) :
    packRangeFault frameLayout (framePackValues f) = frameRangeFault f := by
  have hchecks : packChecks frameLayout (framePackValues f) =
      [ (.frameSelector, true), (.gap, true),
        (.qchipCollisionCount, decide (0 ≤ f.qchipCc) && decide (f.qchipCc ≤ 63) && true),
        (.hitCounter, decide (0 ≤ f.hitCnt) && decide (f.hitCnt ≤ 511) && true),
        (.frameCounter, decide (0 ≤ f.frameCnt) && decide (f.frameCnt ≤ 268435455) && true) ] := rfl
  rw [packRangeFault_eq_first frameLayout_proper, frameRangeFault_eq_first, hchecks, frameChecks]
  simp [firstFailure_cons]

/-- The placement of FRAME_LAYOUT is ENC.FRAME's shift-and-OR composition, whatever the counters (R102, R117). -/
theorem packAcc_frameLayout (f : FrameTriple) : packAcc (framePackValues f) frameLayout 0 = frameWordNat f := by
  rw [frameWordNat, ← Nat.zero_or (7 <<< 45)]
  rfl

/-- Settles O28: the checks fail at the same field, and past them the placements are the same number. -/
theorem encodersArePackOfTheirLayouts : Obligations.EncodersArePackOfTheirLayouts := by
  refine ⟨fun d => ?_, fun f => ?_⟩
  · have hfault := packRangeFault_dataLayout d
    cases h : dataRangeFault d <;> simp [encData, pack, hfault, h, packAcc_dataLayout]
  · have hfault := packRangeFault_frameLayout f
    cases h : frameRangeFault f <;> simp [encFrame, pack, hfault, h, packAcc_frameLayout]

/-! ### ENC.DATA and DEC.DATA as operations of the machine -/

/-- A fault is delivered on the ports with the numbers of R181 (R191). -/
theorem deliver_error_faulted (f : FaultInfo) (s : State) :
    Faulted f.cause f.field (causeCode f.cause) (deliver (.error f) s) :=
  ⟨rfl, rfl, rfl, fieldPort_fieldCode f.field⟩

/-- ENC.DATA delivers its outcome (R84). -/
theorem exec_encData (p : DataPorts) (s : State) :
    exec (.encData p) s = .next (deliver ((encData (tupleOfPorts p)).map .word) s) := rfl

/-- DEC.DATA delivers its outcome (R89). -/
theorem exec_decData (v : Nat) (s : State) : exec (.decData v) s = .next (deliver ((decData v).map .data) s) := rfl

/-- ENC.DATA faults at the first check of R81 that fails. -/
theorem encData_error_of_first {t : DataTuple} {f : FieldName} (h : firstFailure (dataChecks t) = some f) :
    encData t = .error (rangeViolation f) := by
  rw [encData, dataRangeFault_eq_first, h]

/-- DEC.DATA faults at the first test of R89 that fails. -/
theorem decData_error_of_first {v : Nat} {f : FieldName} (h : firstFailure (decDataChecks v) = some f) :
    decData v = .error (malformedWord f) := by
  rw [decData, decDataFault_eq_first, h]

/-- Settles O6: the delivered word is the sum of R55, and PACK's word by O28. -/
theorem encDataProducesTheFieldSum : Obligations.EncDataProducesTheFieldSum := by
  intro p s hlegal
  have hword := encData_of_legal hlegal
  refine ⟨_, _, exec_encData p s, ?_, (encData_ok_iff.mp hword).2, ?_, deliver_onlyOutcome _ s⟩
  · rw [hword]
    exact ⟨deliver_ok_succeeded _ s, rfl⟩
  · rw [← encodersArePackOfTheirLayouts.1, hword]

/-- Settles O8: the first check that fails is the fault that is delivered. -/
theorem encDataRejectsTheFirstBadOperand : Obligations.EncDataRejectsTheFirstBadOperand := by
  intro p s f hfirst
  refine ⟨_, exec_encData p s, ?_, deliver_onlyOutcome _ s⟩
  rw [encData_error_of_first hfirst]
  exact deliver_error_faulted (rangeViolation f) s

/-- Settles O9: the word is the sum of R55, whose slices are the operands and their masks. -/
theorem encodedDataWordsKeepTheInvariants : Obligations.EncodedDataWordsKeepTheInvariants := by
  intro t w hword
  obtain ⟨hlegal, hsum⟩ := encData_ok_iff.mp hword
  obtain ⟨h47, haddress, harb, hpu, h29, hleadC, hleadF, h11, htrailC, htrailF⟩ := hsum ▸ slices_of_dataSum hlegal
  obtain ⟨marb, mpu⟩ := masks_of_legal hlegal
  have hbit (i : Nat) : w.getLsbD i = decide (slice w.toNat i i = 1) := testBit_eq_slice w.toNat i
  have hone : slice w.toNat 39 35 ∈ [1, 2, 4, 8, 16] := harb ▸ marb
  have hatMostOne : slice w.toNat 34 30 ∈ [0, 1, 2, 4, 8, 16] := hpu ▸ mpu
  refine ⟨(hbit 47).trans (decide_eq_true h47), (hbit 29).trans (decide_eq_false (by omega)),
    (hbit 11).trans (decide_eq_false (by omega)), hone, hatMostOne, haddress.trans_le hlegal.1, hleadC, hleadF,
    htrailC, ?_⟩
  simpa [slice_def] using htrailF

/-- Settles O12: a failing test is the fault that is delivered; past the tests the tuple read off is legal and its
sum is the value, whose slices are then the tuple's operands and masks. -/
theorem decDataFollowsItsTests : Obligations.DecDataFollowsItsTests := by
  intro v s
  refine ⟨fun f hfirst => ?_, ?_, fun hv hwf => ?_⟩
  · refine ⟨_, exec_decData v s, ?_, deliver_onlyOutcome _ s⟩
    rw [decData_error_of_first hfirst]
    exact deliver_error_faulted (malformedWord f) s
  · rw [← decDataFault_eq_first, decDataFault_none_iff]
  · obtain ⟨hlegal, hsum⟩ := dataTupleOf_legal hv hwf
    obtain ⟨-, -, harb, hpu, -⟩ := hsum ▸ slices_of_dataSum hlegal
    refine ⟨_, dataTupleOf v, exec_decData v s, ?_, deliver_onlyOutcome _ s, rfl, harb.symm, hpu.symm, rfl, rfl, rfl, ?_⟩
    · rw [decData_of_wf hv hwf]
      exact deliver_ok_succeeded _ s
    · simp [dataTupleOf, slice_def]

end Sys2Proof.Machine
end

section
/-! PROOFS. The frame-word encoders and their decoder (R100 to R108): what ENC.FRAME, ENC.FRAMEK and DEC.FRAME answer
and leave alone, the image of ENC.FRAME, the sentinel outside it, and the round trips. -/

namespace Sys2Proof.Machine

/-! ### The image of ENC.FRAME -/

/-- DEC.FRAME's reading of a well-formed word is the triple that ENC.FRAME sends to it (R106, R108). -/
theorem encFrame_frameTripleOf {w : Word} (h : wfFrame w = true) :
    FrameLegal (frameTripleOf w.toNat) ∧ encFrame (frameTripleOf w.toNat) = .ok w := by
  obtain ⟨hlegal, hsum⟩ := frameTripleOf_legal w.isLt h
  exact ⟨hlegal, encFrame_ok_iff.mpr ⟨hlegal, hsum.symm⟩⟩

/-- The triple that ENC.FRAME sends to a word is DEC.FRAME's reading of the word (R106, R108). -/
theorem frameTripleOf_of_encFrame {f : FrameTriple} {w : Word} (h : encFrame f = .ok w) :
    frameTripleOf w.toNat = f := by
  obtain ⟨hlegal, hsum⟩ := encFrame_ok_iff.mp h
  rw [hsum, frameTripleOf_frameSum hlegal]

/-- The top five bits `11100` are those of one interval: the other 43 bits are free (R106). -/
theorem wfFrame_iff_interval (w : Word) :
    wfFrame w = true ↔ 0xe00000000000 ≤ w.toNat ∧ w.toNat ≤ 0xe7ffffffffff := by
  have hw := w.isLt
  simp only [wfFrame, wfFrameNat, Bool.and_eq_true, decide_eq_true_eq]
  simp only [slice_def]
  omega

/-- No word is a well-formed data word and a well-formed frame word: their kinds differ (R58, R106). -/
theorem wfFrame_false_of_wfData {w : Word} (h : wfData w = true) : wfFrame w = false := by
  rw [Bool.eq_false_iff]
  intro hframe
  have hkind : kindOfWord w = .frame := kind_of_wfFrameOrK (by simp [wfFrameOrK, hframe])
  simp [kind_of_wfData h] at hkind

/-- Settles O18: a well-formed word comes from DEC.FRAME's reading of it and from no other triple. -/
theorem frameWordImageIsOneInterval : Obligations.FrameWordImageIsOneInterval := by
  refine ⟨fun f w => wfFrame_of_encFrame, fun w hw => ?_, wfFrame_iff_interval, by decide,
    fun w => wfFrame_false_of_wfData⟩
  exact ⟨frameTripleOf w.toNat, encFrame_frameTripleOf hw, fun f hf => (frameTripleOf_of_encFrame hf.2).symm⟩

/-! ### The sentinel and the round trips -/

/-- ENC.FRAME on the counters of the sentinel gives the word with gap 0 (R104, R108). -/
theorem encFrame_sentinelCounters : encFrame ⟨0, 5, 60160⟩ = .ok 0xe0005000eb00#48 := by decide

/-- Settles O17: ENC.FRAME returns well-formed words alone, and the sentinel is not one. -/
theorem sentinelIsNoValueOfEncFrame : Obligations.SentinelIsNoValueOfEncFrame := by
  refine ⟨fun f hf => ?_, encFrame_sentinelCounters, by decide⟩
  have hnot : wfFrame 0xe8005000eb00#48 = false := by decide
  simp [wfFrame_of_encFrame hf] at hnot

/-- Settles O19: both trips go through DEC.FRAME's reading of the word. -/
theorem frameRoundTrips : Obligations.FrameRoundTrips := by
  refine ⟨fun f hf => ?_, fun w hw => ?_, decFrame_frameSentinel, encFrame_sentinelCounters⟩
  · have hword := encFrame_of_legal hf
    refine ⟨_, hword, ?_⟩
    rw [decFrame_of_wf (BitVec.isLt _) (wfFrame_of_encFrame hword), frameTripleOf_of_encFrame hword]
  · exact ⟨_, _, decFrame_of_wf w.isLt hw, (encFrame_frameTripleOf hw).2⟩

/-! ### ENC.FRAME, ENC.FRAMEK and DEC.FRAME as operations of the machine -/

/-- ENC.FRAME delivers its outcome (R102). -/
theorem exec_encFrame (f : FrameTriple) (s : State) :
    exec (.encFrame f) s = .next (deliver ((encFrame f).map .word) s) := rfl

/-- ENC.FRAMEK delivers the sentinel (R103). -/
theorem exec_encFramek (s : State) : exec .encFramek s = .next (deliver (.ok (.word 0xe8005000eb00#48)) s) := rfl

/-- DEC.FRAME delivers its outcome (R107). -/
theorem exec_decFrame (v : Nat) (s : State) : exec (.decFrame v) s = .next (deliver ((decFrame v).map frameResult) s) :=
  rfl

/-- ENC.FRAME faults at the first check of R101 that fails. -/
theorem encFrame_error_of_first {f : FrameTriple} {n : FieldName} (h : firstFailure (frameChecks f) = some n) :
    encFrame f = .error (rangeViolation n) := by
  rw [encFrame, frameRangeFault_eq_first, h]

/-- DEC.FRAME faults at the first test of R107 that fails. -/
theorem decFrame_error_of_first {v : Nat} {n : FieldName} (h : firstFailure (decFrameChecks v) = some n) :
    decFrame v = .error (malformedWord n) := by
  rw [decFrame, decFrameFault_eq_first, h]

/-- DEC.FRAME reads the counters and the gap of a value that passes every test (R107). -/
theorem decFrame_of_passes {v : Nat} (h : decFrameFault v = none) :
    decFrame v = .ok (frameTripleOf v, slice v 44 43) := by
  rw [decFrame, h]

/-- DEC.FRAME's tests pass on exactly the well-formed frame words and the sentinel (R105, R107). -/
theorem decFrameFault_none_iff {v : Nat} :
    decFrameFault v = none ↔ v < 2 ^ 48 ∧ (wfFrameNat v = true ∨ v = Config.frameSentinel) := by
  have hsentinel : v = Config.frameSentinel → slice v 47 45 = 7 := by
    rintro rfl
    decide
  unfold decFrameFault wfFrameNat
  simp only [Bool.and_eq_true, decide_eq_true_eq]
  split_ifs with hwidth hmarker hgap
  · exact iff_of_false not_false fun h => Nat.not_lt.mpr hwidth h.1
  · simp [hmarker, mt hsentinel hmarker]
  · simp [hgap]
  · simp only [true_iff]
    refine ⟨Nat.not_le.mp hwidth, ?_⟩
    rw [not_and_or, not_not, not_not] at hgap
    exact hgap.imp_left fun h => ⟨not_not.mp hmarker, h⟩

/-- Settles O13: the delivered word is the sum of R55, and PACK's word by O28. -/
theorem encFrameProducesTheFieldSum : Obligations.EncFrameProducesTheFieldSum := by
  intro f s hlegal
  have hword := encFrame_of_legal hlegal
  refine ⟨_, _, exec_encFrame f s, ?_, (encFrame_ok_iff.mp hword).2, ?_, deliver_onlyOutcome _ s⟩
  · rw [hword]
    exact ⟨deliver_ok_succeeded _ s, rfl⟩
  · rw [← encodersArePackOfTheirLayouts.2, hword]

/-- Settles O15: the first check that fails is the fault that is delivered. -/
theorem encFrameRejectsTheFirstBadCounter : Obligations.EncFrameRejectsTheFirstBadCounter := by
  intro f s n hfirst
  refine ⟨_, exec_encFrame f s, ?_, deliver_onlyOutcome _ s⟩
  rw [encFrame_error_of_first hfirst]
  exact deliver_error_faulted (rangeViolation n) s

/-- Settles O16: the literal is delivered whatever the state. -/
theorem encFramekReturnsTheSentinel : Obligations.EncFramekReturnsTheSentinel := fun s =>
  ⟨_, exec_encFramek s, ⟨deliver_ok_succeeded _ s, rfl⟩, deliver_onlyOutcome _ s⟩

/-- Settles O20: a failing test is the fault that is delivered; past the tests the counters and the gap are the
value's slices. -/
theorem decFrameFollowsItsTests : Obligations.DecFrameFollowsItsTests := by
  intro v s
  refine ⟨fun n hfirst => ?_, ?_, fun hv hwf => ?_⟩
  · refine ⟨_, exec_decFrame v s, ?_, deliver_onlyOutcome _ s⟩
    rw [decFrame_error_of_first hfirst]
    exact deliver_error_faulted (malformedWord n) s
  · rw [← decFrameFault_eq_first]
    exact decFrameFault_none_iff
  · have hcounters : frameTripleOf v = ⟨v / 2 ^ 37 % 64, v / 2 ^ 28 % 512, v % 2 ^ 28⟩ := by
      simp [frameTripleOf, slice_def]
    refine ⟨_, exec_decFrame v s, ?_, deliver_onlyOutcome _ s⟩
    rw [decFrame_of_passes (decFrameFault_none_iff.mpr ⟨hv, hwf⟩), hcounters]
    exact deliver_ok_succeeded _ s

end Sys2Proof.Machine
end

section
/-! PROOFS. PACK and UNPACK on a proper layout (R117 to R119, R125): the fault or the sum, each lane on its own, every
lane read back, and the two as inverses. -/

namespace Sys2Proof.Machine

/-! ### Lanes -/

theorem laneCovers_iff {i : Nat} {f : Field} : laneCovers i f = true ↔ f.offset ≤ i ∧ i < f.offset + f.width := by
  simp [laneCovers]

/-- The slice that UNPACK takes is the lane's value (R118). -/
theorem slice_lane {f : Field} (hwidth : 1 ≤ f.width) (v : Nat) :
    slice v (f.offset + f.width - 1) f.offset = v / 2 ^ f.offset % 2 ^ f.width := by
  rw [slice_def, show f.offset + f.width - 1 - f.offset + 1 = f.width by omega]

/-- A lane's value, put back on its lane, has the bits of the word inside the lane and no other (R119). -/
theorem slice_lane_testBit {f : Field} (hwidth : 1 ≤ f.width) (v i : Nat) :
    (decide (f.offset ≤ i) && (slice v (f.offset + f.width - 1) f.offset).testBit (i - f.offset)) =
      (laneCovers i f && v.testBit i) := by
  by_cases hlow : f.offset ≤ i
  · have hinside : i - f.offset < f.width ↔ i < f.offset + f.width := Nat.sub_lt_iff_lt_add' hlow
    simp only [slice_lane hwidth, Nat.testBit_mod_two_pow, Nat.testBit_div_two_pow, Nat.sub_add_cancel hlow, hinside,
      laneCovers, Bool.and_assoc]
  · simp [laneCovers, hlow]

/-! ### The word that PACK returns -/

/-- PACK returns a word on legal values alone, and the word is the accumulation of R117 with nothing cut off. -/
theorem toNat_of_pack {l : Layout} {vals : FieldValues} {w : Word} (h : properLayout l = true)
    (hw : pack l vals = .ok w) : l.all (fieldLegal vals) = true ∧ w.toNat = packAcc vals l 0 := by
  obtain ⟨hlegal, rfl⟩ := pack_ok_iff.mp hw
  exact ⟨hlegal, by rw [BitVec.toNat_ofNat, Nat.mod_eq_of_lt (packAcc_lt h hlegal)]⟩

/-- A bit on a field's lane is the bit of the field's own operand (R119). -/
theorem getLsbD_of_pack {l : Layout} {vals : FieldValues} {w : Word} (h : properLayout l = true)
    (hw : pack l vals = .ok w) {i : Nat} {f : Field} (hf : f ∈ l) (hlow : f.offset ≤ i)
    (hhigh : i < f.offset + f.width) : w.getLsbD i = (operandOf vals f).testBit (i - f.offset) := by
  obtain ⟨hlegal, hacc⟩ := toNat_of_pack h hw
  have hi : i < 48 := by
    have := (field_inside_word h hf).2
    omega
  rw [BitVec.getLsbD, hacc, ← fieldValue_eq_operandOf,
    packAcc_testBit_lane h hlegal hi hf (laneCovers_iff.mpr ⟨hlow, hhigh⟩)]

/-- An operand that PACK places fits its lane (R119). -/
theorem operandOf_lt_of_pack {l : Layout} {vals : FieldValues} {w : Word} (h : properLayout l = true)
    (hw : pack l vals = .ok w) {f : Field} (hf : f ∈ l) : operandOf vals f < 2 ^ f.width := by
  rw [← fieldValue_eq_operandOf]
  exact fieldValue_lt h hf (List.all_eq_true.mp (toNat_of_pack h hw).1 f hf)

/-- The slice of a field's lane is the operand that PACK placed there (R125 a). -/
theorem slice_of_pack {l : Layout} {vals : FieldValues} {w : Word} (h : properLayout l = true)
    (hw : pack l vals = .ok w) {f : Field} (hf : f ∈ l) :
    slice w.toNat (f.offset + f.width - 1) f.offset = operandOf vals f := by
  rw [slice_lane (field_inside_word h hf).1]
  refine Nat.eq_of_testBit_eq fun k => ?_
  rw [Nat.testBit_mod_two_pow, Nat.testBit_div_two_pow]
  by_cases hk : k < f.width
  · have hbit : w.toNat.testBit (k + f.offset) = _ := getLsbD_of_pack h hw hf (by omega) (by omega)
    rw [hbit, Nat.add_sub_cancel, decide_eq_true hk, Bool.true_and]
  · have hlt : operandOf vals f < 2 ^ k :=
      (operandOf_lt_of_pack h hw hf).trans_le (Nat.pow_le_pow_right Nat.two_pos (Nat.not_lt.mp hk))
    rw [Nat.testBit_lt_two_pow hlt, decide_eq_false hk, Bool.false_and]

/-! ### PACK and UNPACK as operations of the machine -/

/-- PACK of a proper layout with every value supplied delivers its outcome (R117). -/
theorem exec_pack {l : Layout} {vals : FieldValues} (h : properLayout l = true) (hvals : Supplied l vals) (s : State) :
    exec (.pack l vals) s = .next (deliver ((pack l vals).map .word) s) := by
  simp [exec, execPack, h, all_hasValue_iff.mpr hvals]

/-- UNPACK of a proper layout delivers its outcome (R118). -/
theorem exec_unpack {l : Layout} (h : properLayout l = true) (w : Word) (s : State) :
    exec (.unpack l w) s = .next (deliver (.ok (.fields (unpack l w))) s) := by
  simp [exec, execUnpack, h]

/-- An outcome that is a word is delivered on the `word` port (R12). -/
theorem deliver_word_produced (w : Word) (s : State) : ProducedWord w (deliver (.ok (.word w)) s) :=
  ⟨deliver_ok_succeeded _ s, rfl⟩

/-- Settles O24: the first check that fails is the fault; past the checks the accumulation over disjoint lanes is the
sum. -/
theorem packFollowsItsChecks : Obligations.PackFollowsItsChecks := by
  intro l vals s h hvals
  have hfault := packRangeFault_eq_first h vals
  refine ⟨fun n hfirst => ?_, fun hpass => ?_⟩
  · have hpack : pack l vals = .error (rangeViolation n) := by rw [pack, hfault, hfirst]
    refine ⟨_, exec_pack h hvals s, ?_, deliver_onlyOutcome _ s⟩
    rw [hpack]
    exact deliver_error_faulted (rangeViolation n) s
  · have hlegal := packRangeFault_none_iff.mp (hfault.trans hpass)
    obtain ⟨w, hpack⟩ : ∃ w, pack l vals = .ok w := ⟨_, pack_ok_iff.mpr ⟨hlegal, rfl⟩⟩
    refine ⟨_, w, exec_pack h hvals s, ?_, deliver_onlyOutcome _ s, ?_⟩
    · rw [hpack]
      exact deliver_word_produced _ s
    · simp only [(toNat_of_pack h hpack).2, packAcc_eq_sum_of_proper h hlegal, fieldValue_eq_operandOf]

/-- Settles O25: each bit of a lane is a bit of its field's operand. -/
theorem packLanesNeverInteract : Obligations.PackLanesNeverInteract := by
  intro l vals vals' w w' f h hw hw' hf hagree i hlow hhigh
  rw [getLsbD_of_pack h hw hf hlow hhigh, getLsbD_of_pack h hw' hf hlow hhigh, hagree]

/-- Settles O26: UNPACK's slices are the lanes' values. -/
theorem unpackReadsEveryLane : Obligations.UnpackReadsEveryLane := by
  intro l w s h
  have hlanes : unpack l w = l.map fun f => (f.name, w.toNat / 2 ^ f.offset % 2 ^ f.width) :=
    List.map_congr_left fun f hf => by rw [slice_lane (field_inside_word h hf).1]
  refine ⟨_, exec_unpack h w s, deliver_onlyOutcome _ s, ?_⟩
  rw [← hlanes]
  exact deliver_ok_succeeded _ s

/-! ### PACK and UNPACK as inverses -/

/-- UNPACK of a packed word gives the placed values (R125 a). -/
theorem unpack_of_pack {l : Layout} {vals : FieldValues} {w : Word} (h : properLayout l = true)
    (hw : pack l vals = .ok w) : unpack l w = placedValues l vals :=
  List.map_congr_left fun f hf => by rw [slice_of_pack h hw hf]

/-- Bit `i` of values OR-ed on their fields' lanes: from before, or from one of the fields. -/
theorem foldl_or_testBit (value : Field → Nat) (l : Layout) (acc i : Nat) :
    (l.foldl (fun acc f => acc ||| value f <<< f.offset) acc).testBit i =
      (acc.testBit i || l.any fun f => decide (f.offset ≤ i) && (value f).testBit (i - f.offset)) := by
  induction l generalizing acc with
  | nil => simp
  | cons f rest ih => simp [ih, Nat.testBit_or, Nat.testBit_shiftLeft, Bool.or_assoc, ge_iff_le]

/-- The slices of a word, each back on its lane, give the word (R125 b). -/
theorem foldl_or_slices {l : Layout} (h : properLayout l = true) (w : Word) :
    l.foldl (fun acc f => acc ||| slice w.toNat (f.offset + f.width - 1) f.offset <<< f.offset) 0 = w.toNat := by
  refine Nat.eq_of_testBit_eq fun i => ?_
  have hlane : ∀ f ∈ l, (decide (f.offset ≤ i) &&
      (slice w.toNat (f.offset + f.width - 1) f.offset).testBit (i - f.offset)) =
      (laneCovers i f && w.toNat.testBit i) := fun f hf => slice_lane_testBit (field_inside_word h hf).1 _ i
  rw [foldl_or_testBit, Nat.zero_testBit, Bool.false_or, Bool.eq_iff_iff, List.any_eq_true]
  constructor
  · rintro ⟨f, hf, hbit⟩
    rw [hlane f hf, Bool.and_eq_true] at hbit
    exact hbit.2
  · intro hbit
    obtain ⟨f, hf, hcovers⟩ := lane_exists h (BitVec.lt_of_getLsbD hbit)
    exact ⟨f, hf, by rw [hlane f hf, hcovers, hbit, Bool.true_and]⟩

/-- Settles O27: the lanes give back the placed values, so equal words have equal placed values; and every bit of a
word lies on a lane, so the lanes give back the word. -/
theorem packUnpackLaws : Obligations.PackUnpackLaws := by
  intro l h
  refine ⟨fun vals w _ hw => unpack_of_pack h hw, fun w => ⟨?_, ?_⟩, fun vals vals' w _ _ hw hw' => ?_⟩
  · simp [unpack]
  · rw [unpack, ← List.map_prod_left_eq_zip, List.foldl_map]
    exact foldl_or_slices h w
  · rw [← unpack_of_pack h hw, unpack_of_pack h hw']

end Sys2Proof.Machine
end

section
/-! PROOFS. The source of each bit of an encoded word (R120, R121). -/

namespace Sys2Proof.Machine

/-- The bits of a pileup mask are its decoded one-hot lines (R57, R120). -/
theorem pileup_mask_testBit (valid : Bool) (pos k : Nat) :
    (((if valid then some pos else none).elim 0 fun p => 2 ^ p) : Nat).testBit k = (valid && pos == k) := by
  cases valid
  · simp
  · simp [Nat.testBit_two_pow, beq_eq_decide]

/-- Each bit of a data word is a bit of the field on whose lane it lies (R82, R119). -/
theorem getLsbD_of_encData {t : DataTuple} {w : Word} (hw : encData t = .ok w) {i : Nat} {f : Field}
    (hf : f ∈ dataLayout) (hlow : f.offset ≤ i) (hhigh : i < f.offset + f.width) :
    w.getLsbD i = (operandOf (dataPackValues t) f).testBit (i - f.offset) :=
  getLsbD_of_pack dataLayout_proper ((encodersArePackOfTheirLayouts.1 t).symm.trans hw) hf hlow hhigh

/-- Each bit of a frame word is a bit of the field on whose lane it lies (R102, R119). -/
theorem getLsbD_of_encFrame {t : FrameTriple} {w : Word} (hw : encFrame t = .ok w) {i : Nat} {f : Field}
    (hf : f ∈ frameLayout) (hlow : f.offset ≤ i) (hhigh : i < f.offset + f.width) :
    w.getLsbD i = (operandOf (framePackValues t) f).testBit (i - f.offset) :=
  getLsbD_of_pack frameLayout_proper ((encodersArePackOfTheirLayouts.2 t).symm.trans hw) hf hlow hhigh

/-- Settles O7: each range of bits is a lane of DATA_LAYOUT, whose bits are those of its operand. -/
theorem encDataBitSources : Obligations.EncDataBitSources := by
  intro p s hlegal
  have hword := encData_of_legal hlegal
  refine ⟨_, exec_encData p s, ?_⟩
  rw [hword, Except.map]
  refine ⟨rfl, fun i hi => ?_⟩
  rw [(deliver_word_produced _ s).2]
  have hlanes := fun f => getLsbD_of_encData hword (i := i) (f := f)
  simp only [dataLayout, List.forall_mem_cons] at hlanes
  obtain ⟨hmarker, haddress, harb, hpu, hleadSel, hleadC, hleadF, htrailSel, htrailC, htrailF, -⟩ := hlanes
  split_ifs with h47 h40 h35 h30 h29 h17 h12 h11 h5
  · subst h47; exact (hmarker le_rfl (by decide)).trans Nat.testBit_one_zero
  · exact haddress h40 (by omega)
  · rw [harb h35 (by omega)]
    exact (Nat.testBit_two_pow ..).trans (beq_eq_decide ..).symm
  · exact (hpu h30 (by omega)).trans (pileup_mask_testBit ..)
  · subst h29; exact (hleadSel le_rfl (by decide)).trans (Nat.zero_testBit _)
  · exact hleadC h17 (by omega)
  · exact hleadF h12 (by omega)
  · subst h11; exact (htrailSel le_rfl (by decide)).trans (Nat.zero_testBit _)
  · exact htrailC h5 (by omega)
  · exact htrailF (Nat.zero_le i) (by omega)

/-- The bits of the sentinel literal (R103, R121). -/
theorem getLsbD_frameSentinel : ∀ i < 48, (0xe8005000eb00#48).getLsbD i =
    if 45 ≤ i then true
    else if i = 44 then false
    else if i = 43 then true
    else if 37 ≤ i then false
    else if 28 ≤ i then (0b000000101).testBit (i - 28)
    else (0xeb00).testBit i := by decide

/-- Settles O14: each range of bits is a lane of FRAME_LAYOUT, whose bits are those of its operand; the sentinel is a
literal. -/
theorem frameBitSources : Obligations.FrameBitSources := by
  intro f s hlegal
  have hword := encFrame_of_legal hlegal
  refine ⟨_, _, exec_encFrame f s, exec_encFramek s, ?_⟩
  rw [hword, Except.map]
  refine ⟨rfl, rfl, fun i hi => ⟨?_, getLsbD_frameSentinel i hi⟩⟩
  rw [(deliver_word_produced _ s).2]
  have hlanes := fun g => getLsbD_of_encFrame hword (i := i) (f := g)
  simp only [frameLayout, List.forall_mem_cons] at hlanes
  obtain ⟨hmarker, hgap, hqchip, hhit, hframe, -⟩ := hlanes
  split_ifs with h45 h43 h37 h28
  · have hones : ∀ k < 3, Nat.testBit 7 k = true := by decide
    exact (hmarker h45 hi).trans (hones (i - 45) (by omega))
  · exact (hgap h43 (by omega)).trans (Nat.zero_testBit _)
  · exact hqchip h37 (by omega)
  · exact hhit h28 (by omega)
  · exact hframe (Nat.zero_le i) (by omega)

end Sys2Proof.Machine
end

section
/-! PROOFS. MUX.SEL and CLASSIFY (R122 to R124). -/

namespace Sys2Proof.Machine

/-- Bit 47 of a word of kind FRAME or DATA is 1 (R58). -/
theorem getLsbD_47_of_kind {w : Word} (h : kindOfWord w ≠ .none) : w.getLsbD 47 = true := by
  by_contra h47
  rw [Bool.not_eq_true] at h47
  simp only [kindOfWord_eq_markers, h47, Bool.false_and, Bool.false_eq_true, if_false] at h
  exact h rfl

/-- A word of MUX.SEL has the kind of the operation that is selected (R124). -/
theorem kindOfWord_of_muxSel {selFrame frameFixed : Bool} {p : Ports} {w : Word}
    (hw : muxSel selFrame frameFixed p = .ok w) : kindOfWord w = if selFrame then .frame else .data := by
  cases selFrame with
  | false => exact kind_of_wfData (wfData_of_encData hw)
  | true =>
    refine kind_of_wfFrameOrK (w := w) ?_
    cases frameFixed with
    | false =>
      have hwf : wfFrame w = true := wfFrame_of_encFrame hw
      rw [wfFrameOrK, hwf, Bool.true_or]
    | true =>
      obtain rfl : 0xe8005000eb00#48 = w := Except.ok.inj hw
      decide

theorem getLsbD_47_of_muxSel {selFrame frameFixed : Bool} {p : Ports} {w : Word}
    (hw : muxSel selFrame frameFixed p = .ok w) : w.getLsbD 47 = true :=
  getLsbD_47_of_kind (by rw [kindOfWord_of_muxSel hw]; cases selFrame <;> decide)

theorem kindOfWord_of_muxSel_eq_frame_iff {selFrame frameFixed : Bool} {p : Ports} {w : Word}
    (hw : muxSel selFrame frameFixed p = .ok w) : kindOfWord w = .frame ↔ selFrame = true := by
  rw [kindOfWord_of_muxSel hw]
  cases selFrame <;> decide

/-- MUX.SEL returns a word when the operands that the select inputs choose are legal (R122, R123). -/
theorem exists_muxSel_of_legal {selFrame frameFixed : Bool} {p : Ports} (h : SelectedLegal selFrame frameFixed p) :
    ∃ w, muxSel selFrame frameFixed p = .ok w := by
  cases selFrame with
  | false => exact ⟨_, encData_of_legal (h.1 rfl)⟩
  | true =>
    cases frameFixed with
    | false => exact ⟨_, encFrame_of_legal (h.2 rfl rfl)⟩
    | true => exact ⟨_, rfl⟩

/-- MUX.SEL delivers its outcome (R122). -/
theorem exec_muxSel (selFrame frameFixed : Bool) (p : Ports) (s : State) :
    exec (.muxSel selFrame frameFixed p) s = .next (deliver ((muxSel selFrame frameFixed p).map .word) s) := rfl

/-- CLASSIFY delivers its outcome (R124). -/
theorem exec_classify (w : Word) (s : State) :
    exec (.classify w) s = .next (deliver (.ok (.kind (kindOfWord w))) s) := rfl

/-- A word that reaches the caller is the outcome, and stands on the `word` port (R12). -/
theorem word_of_deliver {e : Except FaultInfo Word} {s : State} {w : Word}
    (h : (deliver (e.map .word) s).result = .word w) : e = .ok w ∧ (deliver (e.map .word) s).word = w := by
  cases e with
  | error f => cases h
  | ok v => cases h; exact ⟨rfl, rfl⟩

/-- Settles O22: the select inputs alone choose the arm, and the word of each arm has a kind. -/
theorem muxSelIsTheSelectedOperation : Obligations.MuxSelIsTheSelectedOperation := by
  intro p s
  refine ⟨rfl, rfl, rfl, rfl, fun selFrame frameFixed t w hexec hresult => ?_⟩
  obtain rfl := Host.Outcome.next.inj ((exec_muxSel ..).symm.trans hexec)
  obtain ⟨hw, hport⟩ := word_of_deliver hresult
  exact ⟨hport, getLsbD_47_of_muxSel hw⟩

/-- Settles O23: the word that the legal operands give is delivered, and has the kind of the selected operation. -/
theorem muxSelProducesAWordOfTheSelectedKind : Obligations.MuxSelProducesAWordOfTheSelectedKind := by
  intro selFrame frameFixed p s hlegal
  obtain ⟨w, hw⟩ := exists_muxSel_of_legal hlegal
  refine ⟨_, w, exec_muxSel selFrame frameFixed p s, ?_, deliver_onlyOutcome _ s, getLsbD_47_of_muxSel hw,
    kindOfWord_of_muxSel_eq_frame_iff hw⟩
  rw [hw]
  exact deliver_word_produced w s

/-- Settles O29: the kind is read off the marker bits, and a word of MUX.SEL has the selected kind. -/
theorem classifyReadsTheMarkerBits : Obligations.ClassifyReadsTheMarkerBits := by
  refine ⟨fun w s => ⟨_, exec_classify w s, deliver_onlyOutcome _ s, ?_⟩,
    fun _ _ _ _ => kindOfWord_of_muxSel_eq_frame_iff⟩
  rw [← kindOfWord_eq_markers]
  exact deliver_ok_succeeded _ s

end Sys2Proof.Machine
end

section
/-! PROOFS. What a layout is (R116): properness as disjoint lanes that cover the word, the two tables, and the extra
predicates. -/

namespace Sys2Proof.Machine

/-- What properness asks of one field (R116). -/
theorem fieldProper_iff {f : Field} :
    fieldProper f = true ↔ (1 ≤ f.width ∧ (∀ c, f.kind = .const c → c < 2 ^ f.width) ∧
      ∀ lo hi, f.kind = .input lo hi → lo ≤ hi ∧ hi < 2 ^ f.width) ∧ f.offset + f.width ≤ 48 := by
  cases hk : f.kind <;> simp [fieldProper, hk] <;> tauto

/-- Where the lanes are pairwise disjoint a bit lies in at most one of them (R116). -/
theorem length_filter_laneCovers_le_one {l : Layout}
    (h : l.Pairwise fun f g => ∀ i, laneCovers i f = true → laneCovers i g = false) (i : Nat) :
    (l.filter (laneCovers i)).length ≤ 1 := by
  have hcovers : ∀ f ∈ l.filter (laneCovers i), laneCovers i f = true := fun f hf => (List.mem_filter.mp hf).2
  have hdisjoint := h.filter (laneCovers i)
  match hl : l.filter (laneCovers i) with
  | [] => simp
  | [f] => simp
  | f :: g :: rest =>
    rw [hl] at hcovers hdisjoint
    have hg := List.rel_of_pairwise_cons hdisjoint List.mem_cons_self i (hcovers f List.mem_cons_self)
    simp [hcovers g (by simp)] at hg

/-- A proper layout, by its fields, its pairwise disjoint lanes and the bits that they cover (R116). -/
theorem properLayout_iff {l : Layout} :
    properLayout l = true ↔ (∀ f ∈ l, fieldProper f = true) ∧
      (l.Pairwise fun f g => ∀ i, laneCovers i f = true → laneCovers i g = false) ∧
      ∀ i, i < 48 ↔ ∃ f ∈ l, laneCovers i f = true := by
  constructor
  · intro h
    have hcount : ∀ i < 48, (l.filter (laneCovers i)).length = 1 := by
      simp only [properLayout, Bool.and_eq_true, List.all_eq_true, List.mem_range, beq_iff_eq] at h
      exact h.2
    refine ⟨fun f => fieldProper_of_proper h, ?_, fun i => ?_⟩
    · exact lanes_pairwise (fun f hf => (field_inside_word h hf).2) fun i hi => (hcount i hi).le
    · refine ⟨lane_exists h, fun ⟨f, hf, hcovers⟩ => ?_⟩
      have hinside := (field_inside_word h hf).2
      have hhigh := (laneCovers_iff.mp hcovers).2
      omega
  · rintro ⟨hfields, hdisjoint, hcover⟩
    simp only [properLayout, Bool.and_eq_true, List.all_eq_true, List.mem_range, beq_iff_eq]
    refine ⟨hfields, fun i hi => le_antisymm (length_filter_laneCovers_le_one hdisjoint i) ?_⟩
    obtain ⟨f, hf, hlane⟩ := (hcover i).mp hi
    exact List.length_pos_of_mem (List.mem_filter.mpr ⟨hf, hlane⟩)

/-- A mask below `2^48` has one bit set exactly when it is a power of two (R9, R116). -/
theorem condHolds_oneBit_iff {v : Nat} (hv : v < 2 ^ 48) : condHolds .oneBit v = true ↔ ∃ p : Nat, v = 2 ^ p := by
  rw [condHolds, beq_iff_eq, popcount, popcountLow_eq_one_iff hv]
  refine ⟨fun ⟨p, _, hp⟩ => ⟨p, hp⟩, fun ⟨p, hp⟩ => ⟨p, ?_, hp⟩⟩
  exact (Nat.pow_lt_pow_iff_right Nat.one_lt_two).mp (hp ▸ hv)

/-- A mask has at most one bit set exactly when it has none or one (R9, R116). -/
theorem condHolds_atMostOneBit_iff {v : Nat} (hv : v < 2 ^ 48) :
    condHolds .atMostOneBit v = true ↔ v = 0 ∨ ∃ p : Nat, v = 2 ^ p := by
  rw [← condHolds_oneBit_iff hv, ← popcountLow_eq_zero_iff hv, condHolds, beq_iff_eq, condHolds,
    decide_eq_true_iff]
  exact Nat.le_one_iff_eq_zero_or_eq_one

/-- The values `0 .. hi` that satisfy a predicate, as a list of accepted values (R116, log 22). -/
def acceptedValues (predicate : Nat → Bool) (hi : Nat) : List Nat := (List.range (hi + 1)).filter predicate

theorem condHolds_acceptedValues {predicate : Nat → Bool} {hi v : Nat} (hv : v ≤ hi) :
    condHolds (.oneOf (acceptedValues predicate hi)) v = predicate v := by
  rw [condHolds, Bool.eq_iff_iff, List.contains_iff_mem, acceptedValues, List.mem_filter, List.mem_range]
  exact and_iff_right (Nat.lt_succ_of_le hv)

/-- Settles O57: properness is that of `properLayout_iff`, where a field inside the word follows from the bits that the
lanes cover; the tables and the predicates are read off. -/
theorem layoutsAreThoseOfTheRule : Obligations.LayoutsAreThoseOfTheRule := by
  refine ⟨fun l => ?_, dataLayout_proper, frameLayout_proper, rfl, rfl,
    fun v hv => ⟨condHolds_oneBit_iff hv, condHolds_atMostOneBit_iff hv⟩,
    fun predicate hi => ⟨.oneOf (acceptedValues predicate hi), fun v => condHolds_acceptedValues⟩⟩
  have hdisjoint (f g : Field) : (∀ i, laneCovers i f = true → laneCovers i g = false) ↔
      ∀ i, ¬ (f.offset ≤ i ∧ i < f.offset + f.width ∧ g.offset ≤ i ∧ i < g.offset + g.width) :=
    forall_congr' fun i => by rw [← Bool.not_eq_true, laneCovers_iff, laneCovers_iff, ← not_and, and_assoc]
  simp only [properLayout_iff, hdisjoint]
  simp only [laneCovers_iff, fieldProper_iff]
  refine ⟨fun ⟨hfields, hlanes⟩ => ⟨fun f hf => (hfields f hf).1, hlanes⟩,
    fun ⟨hfields, hpairwise, hcover⟩ => ⟨fun f hf => ⟨hfields f hf, ?_⟩, hpairwise, hcover⟩⟩
  have hwidth := (hfields f hf).1
  have hlast := (hcover (f.offset + f.width - 1)).mpr ⟨f, hf, by omega, by omega⟩
  omega

end Sys2Proof.Machine
end

section
/-! PROOFS. RENDER.HEX (R135, R138): the token read at a place, the number that it reads back to, and the two ends of
the operation. -/

namespace Sys2Proof.Machine

/-- Each digit is the character at its own place in the row of the sixteen (R136). -/
theorem hexDigit_eq_getElem? : ∀ d < 16,
    some (hexDigit d) = ['0', '1', '2', '3', '4', '5', '6', '7', '8', '9', 'a', 'b', 'c', 'd', 'e', 'f'][d]? := by
  decide

/-- Nibble `k` from the top is bits `47 - 4k` to `44 - 4k` (R34). -/
theorem nibble_eq (v : Nat) {k : Nat} (hk : k < 12) :
    slice v (47 - 4 * k) (44 - 4 * k) = v / 2 ^ (44 - 4 * k) % 16 := by
  rw [slice_def, show 47 - 4 * k - (44 - 4 * k) + 1 = 4 by omega]
  rfl

/-- Character `k` of the token is the digit of nibble `k` from the top (R135). -/
theorem hexToken_getElem? (v : Nat) {k : Nat} (hk : k < 12) :
    (hexToken v)[k]? = some (hexDigit (v / 2 ^ (44 - 4 * k) % 16)) := by
  rw [hexToken, List.getElem?_map, List.getElem?_range hk, Option.map_some, nibble_eq v hk]

/-- The token of a value below `2^48` reads back as the value (R138). -/
theorem tokenValue_hexToken {v : Nat} (hv : v < 2 ^ 48) : tokenValue (hexToken v) = v := by
  have hdigits : ∀ d ∈ (List.range 12).map fun k => slice v (47 - 4 * k) (44 - 4 * k), d < 16 := by
    simp only [List.mem_map]
    rintro _ ⟨k, -, rfl⟩
    exact nibble_lt v k
  calc tokenValue (hexToken v)
      = tokenValue (((List.range 12).map fun k => slice v (47 - 4 * k) (44 - 4 * k)).map hexDigit) := by
        rw [List.map_map]
        rfl
    _ = v / 2 ^ (48 - 4 * 12) := (tokenValue_digits hdigits).trans (nibbles_value hv le_rfl)
    _ = v := Nat.div_one v

/-- RENDER.HEX delivers its outcome (R135). -/
theorem exec_renderHex (v : Nat) (s : State) :
    exec (.renderHex v) s = .next (deliver ((renderHex v).map .text) s) := rfl

/-- From `2^48` on the value overflows, and no text is made (R135, R185). -/
theorem renderHex_of_ge {v : Nat} (h : 2 ^ 48 ≤ v) : renderHex v = .error ⟨.renderOverflow, .none⟩ := if_pos h

/-- Settles O30: the two ends of RENDER.HEX, with the token's places and its value from the lemmas above. -/
theorem renderHexFollowsItsRule : Obligations.RenderHexFollowsItsRule := by
  refine fun v s => ⟨fun hlt => ?_, fun hge => ?_⟩
  · refine ⟨_, hexToken v, exec_renderHex v s, ?_, deliver_onlyOutcome _ s, hexToken_length v,
      tokenValue_hexToken hlt, fun k hk => ?_⟩
    · rw [renderHex_of_lt hlt]
      exact deliver_ok_succeeded _ s
    · exact (hexToken_getElem? v hk).trans (hexDigit_eq_getElem? _ (Nat.mod_lt _ (by decide)))
  · refine ⟨_, exec_renderHex v s, ?_, deliver_onlyOutcome _ s⟩
    rw [renderHex_of_ge hge]
    exact deliver_error_faulted ⟨.renderOverflow, .none⟩ s

end Sys2Proof.Machine
end

section
/-! PROOFS. SAMPLE (R152 to R154): what it delivers in every state, the order of its draws under a script, and the words
that it can return. -/

namespace Sys2Proof.Machine

/-- SAMPLE delivers the word that ENC.DATA gives its drawn fields, with the word's token (R151, R153). -/
theorem exec_sample (s : State) :
    ∃ w, encData (sampleFields s.src).1 = .ok w ∧ wfData w = true ∧
      exec .sample s =
        .next (deliver (.ok (.token w (hexToken w.toNat))) { s with src := (sampleFields s.src).2 }) := by
  obtain ⟨w, hencoded, hwf, hrendered⟩ := sampleWord_spec s.src
  refine ⟨w, hencoded, hwf, ?_⟩
  rw [exec, execSample, hrendered]

/-- The next answer of a script, inside the interval, is the draw's answer (R19, R146). -/
theorem draw_cons {hi r : Nat} (hr : r ≤ hi) (rest : List Nat) (k : Nat) :
    draw 0 hi ⟨r :: rest, k⟩ = (r, ⟨rest, k + 1⟩) :=
  draw_scripted rfl (Nat.zero_le r) hr

/-- Scripted answers give the pileup that they stand for: a position is read only after trigger 0 (R149). -/
theorem samplePileup_scripted {trigger : Nat} {p : Option Nat} (hp : ∀ q ∈ p, q ≤ 4) (htrigger : trigger ≤ 332)
    (hiff : trigger = 0 ↔ p.isSome = true) (rest : List Nat) (k : Nat) :
    samplePileup ⟨trigger :: (p.toList ++ rest), k⟩ = (p, ⟨rest, k + if trigger = 0 then 2 else 1⟩) := by
  have hdraw : trigger ≤ Config.pileupModulus - 1 := htrigger
  cases p with
  | none =>
    have hne : trigger ≠ 0 := by simpa using hiff
    simp [samplePileup, draw_cons hdraw, hne]
  | some q =>
    obtain rfl : trigger = 0 := hiff.mpr rfl
    simp [samplePileup, draw_cons hdraw, draw_cons (hp q rfl)]

/-- Scripted answers in the order of the rule give the fields that they stand for, and leave the rest (R152). -/
theorem sampleFields_scripted {d : DataTuple} {trigger : Nat} (hlegal : DataLegal d) (htrigger : trigger ≤ 332)
    (hiff : trigger = 0 ↔ d.pileup.isSome = true) (rest : List Nat) (k : Nat) :
    sampleFields ⟨d.address :: d.arbPos :: trigger :: (d.pileup.toList ++
        d.leadCoarse :: d.leadFine :: d.trailCoarse :: d.trailFine :: rest), k⟩ =
      (d, ⟨rest, k + if trigger = 0 then 8 else 7⟩) := by
  obtain ⟨haddress, harb, hpileup, hleadC, hleadF, htrailC, htrailF⟩ := hlegal
  simp only [sampleFields, draw_cons haddress, draw_cons harb, samplePileup_scripted hpileup htrigger hiff,
    draw_cons hleadC, draw_cons hleadF, draw_cons htrailC, draw_cons htrailF]
  split <;> rfl

/-- Every pileup, present or absent, has a trigger that leads to it (R149). -/
theorem exists_trigger (p : Option Nat) : ∃ trigger ≤ 332, (trigger = 0 ↔ p.isSome = true) := by
  cases p with
  | none => exact ⟨1, by decide, by decide⟩
  | some q => exact ⟨0, by decide, iff_of_true rfl rfl⟩

/-- Settles O31: SAMPLE delivers a word in every state, and its draws are those of its fields. -/
theorem sampleNeverFaults : Obligations.SampleNeverFaults := by
  intro s
  obtain ⟨w, -, hwf, hexec⟩ := exec_sample s
  exact ⟨_, w, hexec, deliver_ok_succeeded _ _, rfl, hwf, deliver_onlyOutcome _ _, (sampleFields_spec s.src).2⟩

/-- Settles O32: the script fixes the fields and the source after them, and SAMPLE encodes those fields. -/
theorem sampleConsumesDrawsInOrder : Obligations.SampleConsumesDrawsInOrder := by
  intro s d trigger rest hlegal htrigger hiff hscript
  obtain ⟨w, hencoded, -, hexec⟩ := exec_sample s
  have hfields := sampleFields_scripted hlegal htrigger hiff rest s.src.draws
  rw [← hscript] at hfields
  rw [hfields] at hencoded hexec
  exact ⟨_, w, hexec, hencoded, deliver_ok_succeeded _ _, rfl, rfl⟩

/-- Settles O33: DEC.DATA's reading of a well-formed word, written as a script, makes SAMPLE return the word by O32. -/
theorem sampleReachesExactlyTheDataWords : Obligations.SampleReachesExactlyTheDataWords := by
  refine ⟨fun s w hwf => ?_, fun s t hnext => ?_⟩
  · obtain ⟨hlegal, hword⟩ := encData_dataTupleOf hwf
    obtain ⟨trigger, htrigger, hiff⟩ := exists_trigger (dataTupleOf w.toNat).pileup
    obtain ⟨t, w', hexec, hword', ⟨hresult, -⟩, -⟩ :=
      sampleConsumesDrawsInOrder { s with src := { s.src with script := _ } } _ trigger [] hlegal htrigger hiff rfl
    obtain rfl : w = w' := Except.ok.inj (hword.symm.trans hword')
    exact ⟨_, t, hexec, hresult⟩
  · obtain ⟨w, -, hwf, hexec⟩ := exec_sample s
    obtain rfl := Host.Outcome.next.inj (hexec.symm.trans hnext)
    exact ⟨w, hwf, rfl⟩

end Sys2Proof.Machine
end

section
/-! PROOFS. One step of SEQ (R164, R165, R169, R170): its four outcomes, which of them the sink and the triple choose,
and the start step. -/

namespace Sys2Proof.Machine

/-! ### The outcomes of a step of SEQ -/

/-- A step of SEQ whose write the sink refused (R169): the answer is used up. -/
structure RefusedWrite (s t : State) (op : OpName) : Prop extends FaultedStep s t sinkFailure op where
  op_step : op = .dataStep ∨ op = .frameStep
  refused : (sinkDecision s.sink).1 = false
  answers : t.sink.answers = (sinkDecision s.sink).2

/-- A frame-word step of GENERAL mode whose triple has `n` as its first counter out of range (R163, R170): the sink was
not asked. -/
structure RejectedTriple (s t : State) (n : FieldName) : Prop extends
    FaultedStep s t (rangeViolation n) .encFrame where
  before : s.widx = s.cfg.n
  mode : s.cfg.mode = .general
  first : firstFailure (frameChecks (chunkTriple s)) = some n
  src : t.src = s.src
  sink : t.sink = s.sink

/-- What a step of SEQ comes to. -/
inductive SeqOutcome (s t : State) : Prop where
  | emitted (w : Word) (h : EmittedData s t w)
  | closed (w : Word) (h : ClosedChunk s t w)
  | refused (op : OpName) (h : RefusedWrite s t op)
  | rejected (n : FieldName) (h : RejectedTriple s t n)

/-- A write uses up one answer of the sink, whatever it is (R186). -/
theorem seqWrite_answers {acc : State → State} (hacc : ∀ u, (acc u).sink = u.sink) (txt : Text) (op : OpName)
    (s : State) : (seqWrite txt op acc s).sink.answers = (sinkDecision s.sink).2 := by
  rcases seqWrite_cases txt op acc s with ⟨-, h⟩ | ⟨-, h⟩
  · rw [h, hacc]
    rfl
  · rw [h]
    rfl

theorem seqData_answers (s : State) : (seqData s).sink.answers = (sinkDecision s.sink).2 := by
  obtain ⟨w, -, -, hs⟩ := sampleWord_spec s.src
  rw [seqData, hs]
  exact seqWrite_answers (emitData_sink w _) _ _ _

theorem seqFrame_answers {s : State} {w : Word} (h : frameWord s.cfg.mode (chunkTriple s) = .ok w) :
    (seqFrame s).sink.answers = (sinkDecision s.sink).2 := by
  rw [seqFrame, h, renderWord_ok]
  exact seqWrite_answers (emitFrame_sink w _) _ _ _

/-- A frame word cannot be encoded only in GENERAL mode, for the first counter out of range (R163, R101). -/
theorem frameWord_error {m : FrameMode} {t : FrameTriple} {f : FaultInfo} (h : frameWord m t = .error f) :
    m = .general ∧ ∃ n, firstFailure (frameChecks t) = some n ∧ f = rangeViolation n := by
  cases m with
  | fixed => cases h
  | general =>
    refine ⟨rfl, ?_⟩
    rw [frameWord, encFrame, frameRangeFault_eq_first] at h
    cases hfirst : firstFailure (frameChecks t) with
    | none => simp [hfirst] at h
    | some n => exact ⟨n, rfl, by simpa [hfirst] using h.symm⟩

/-- The check that fails is of one of the three counters (R101). -/
theorem frameChecks_field {t : FrameTriple} {n : FieldName} (h : firstFailure (frameChecks t) = some n) :
    n ∈ [FieldName.qchipCollisionCount, .hitCounter, .frameCounter] := by
  rw [← frameRangeFault_eq_first, frameRangeFault] at h
  split_ifs at h <;> simp_all

/-- No check fails exactly on a legal triple (R100, R101). -/
theorem firstFailure_frameChecks_none_iff {t : FrameTriple} :
    firstFailure (frameChecks t) = none ↔ FrameLegal t := by
  rw [← frameRangeFault_eq_first, frameRangeFault_none_iff]

/-- The step of SEQ that is enabled comes to one of its four outcomes (R164, R165, R169, R170). -/
theorem seqAdvance_outcome {s t : State} (h : seqAdvance s = some t) : SeqOutcome s t := by
  obtain ⟨hrun, hfr, hle⟩ := seqAdvance_isSome_iff.mp ⟨t, h⟩
  rw [seqAdvance, if_pos ⟨hrun, hfr⟩] at h
  rcases hle.lt_or_eq with hw | hw
  · obtain rfl : seqData s = t := by simpa [hw] using h
    rcases seqData_cases hfr hw with ⟨w, h⟩ | ⟨hrefused, h⟩
    · exact .emitted w h
    · exact .refused _ { h with op_step := .inl rfl, refused := hrefused, answers := seqData_answers s }
  · obtain rfl : seqFrame s = t := by simpa [hw] using h
    rcases seqFrame_cases hfr hw with ⟨w, h⟩ | ⟨f, herror, h, hsrc, hsink⟩ | ⟨hrefused, ⟨w, hword⟩, h⟩
    · exact .closed w h
    · obtain ⟨hmode, n, hfirst, rfl⟩ := frameWord_error herror
      exact .rejected n { h with before := hw, mode := hmode, first := hfirst, src := hsrc, sink := hsink }
    · exact .refused _ { h with op_step := .inr rfl, refused := hrefused, answers := seqFrame_answers hword }

/-- A triple that is legal, where one is read (R163). -/
def TripleOk (s : State) : Prop := s.widx = s.cfg.n → s.cfg.mode = .general → FrameLegal (chunkTriple s)

theorem tripleOk_of_lt {s : State} (h : s.widx < s.cfg.n) : TripleOk s := fun hw => absurd hw h.ne

/-- With a legal triple no step is rejected. -/
theorem RejectedTriple.not_tripleOk {s t : State} {n : FieldName} (h : RejectedTriple s t n) : ¬ TripleOk s := by
  intro hok
  have hnone := firstFailure_frameChecks_none_iff.mpr (hok h.before h.mode)
  rw [h.first] at hnone
  cases hnone

/-- An enabled step whose write is accepted emits a word, when the triple can be encoded (R164, R165). -/
theorem seqAdvance_accepted {s t : State} (h : seqAdvance s = some t) (htriple : TripleOk s)
    (haccept : (sinkDecision s.sink).1 = true) : (∃ w, EmittedData s t w) ∨ ∃ w, ClosedChunk s t w := by
  cases seqAdvance_outcome h with
  | emitted w h => exact .inl ⟨w, h⟩
  | closed w h => exact .inr ⟨w, h⟩
  | refused op h => exact absurd haccept (by simp [h.refused])
  | rejected n h => exact absurd htriple h.not_tripleOk

/-- An enabled step whose write is refused faults, when the triple can be encoded (R169). -/
theorem seqAdvance_refused {s t : State} (h : seqAdvance s = some t) (htriple : TripleOk s)
    (hrefuse : (sinkDecision s.sink).1 = false) : ∃ op, RefusedWrite s t op := by
  cases seqAdvance_outcome h with
  | emitted w h => exact absurd h.accepted (by simp [hrefuse])
  | closed w h => exact absurd h.accepted (by simp [hrefuse])
  | refused op h => exact ⟨op, h⟩
  | rejected n h => exact absurd htriple h.not_tripleOk

/-- A frame-word step with a triple out of range is rejected (R163, R170). -/
theorem seqAdvance_rejected {s t : State} {n : FieldName} (h : seqAdvance s = some t) (hw : s.widx = s.cfg.n)
    (hmode : s.cfg.mode = .general) (hfirst : firstFailure (frameChecks (chunkTriple s)) = some n) :
    RejectedTriple s t n := by
  obtain ⟨hrun, hfr, -⟩ := seqAdvance_isSome_iff.mp ⟨t, h⟩
  have herror : frameWord s.cfg.mode (chunkTriple s) = .error (rangeViolation n) := by
    rw [hmode]
    exact encFrame_error_of_first hfirst
  obtain rfl : seqFrame s = t := by simpa [seqAdvance, hrun, hfr, hw] using h
  rcases seqFrame_cases hfr hw with ⟨w, h⟩ | ⟨f, herror', h, hsrc, hsink⟩ | ⟨-, ⟨w, hword⟩, -⟩
  · exact absurd (h.encoded.symm.trans herror) (by simp)
  · obtain rfl : f = rangeViolation n := Except.error.inj (herror'.symm.trans herror)
    exact { h with before := hw, mode := hmode, first := hfirst, src := hsrc, sink := hsink }
  · exact absurd (hword.symm.trans herror) (by simp)

/-- A fault of SEQ is on the ports with the number of its cause (R181, R191). -/
theorem FaultedStep.faulted {s t : State} {f : FaultInfo} {op : OpName} (h : FaultedStep s t f op) :
    Faulted f.cause f.field (causeCode f.cause) t :=
  ⟨h.result, h.fault, h.faultCause, h.faultField ▸ fieldPort_fieldCode f.field⟩

theorem seqFault_faulted (f : FaultInfo) (op : OpName) (s : State) :
    Faulted f.cause f.field (causeCode f.cause) (seqFault f op s) :=
  ⟨rfl, rfl, rfl, fieldPort_fieldCode f.field⟩

/-! ### The step of SEQ as a step of the machine -/

/-- With nothing presented the machine takes the step of SEQ that is enabled (R164, R165; log 21). -/
theorem step_of_seqAdvance {s t : State} (hinbox : s.inbox = []) (h : seqAdvance s = some t) : step s = .next t := by
  simp only [step, nextTurn, hinbox, seqTurn, h]

/-- In a run that has not gone past its chunk SEQ has a step, and with nothing presented the machine takes it. -/
theorem step_of_running {s : State} (hinbox : s.inbox = []) (hrun : s.phase = .run) (hfr : s.fr = none)
    (hw : s.widx ≤ s.cfg.n) : ∃ t, seqAdvance s = some t ∧ step s = .next t := by
  obtain ⟨t, ht⟩ := seqAdvance_isSome_iff.mpr ⟨hrun, hfr, hw⟩
  exact ⟨t, ht, step_of_seqAdvance hinbox ht⟩

/-- An event of the host that is no operation is taken as the oldest one (R217). -/
theorem step_of_hostEvent {s : State} {e : HostEvent} {rest : List HostEvent} (h : s.inbox = e :: rest)
    (he : ∀ p, e ≠ .present p) : step s = hostEvent e { s with inbox := rest } := by
  rcases step_of_inbox s with ⟨hnil, -⟩ | ⟨p, rest', hp, -⟩ | ⟨e', rest', he', -, hstep⟩
  · simp [h] at hnil
  · exact absurd (List.cons.inj (h.symm.trans hp)).1 (he p)
  · obtain ⟨rfl, rfl⟩ := List.cons.inj (h.symm.trans he')
    exact hstep

/-- In IDLE the host's configuration is taken (R217). -/
theorem step_of_configure {s : State} {cfg : RunConfig} {rest : List HostEvent} (h : s.inbox = .configure cfg :: rest)
    (hidle : s.phase = .idle) : step s = .next { s with inbox := rest, cfg := cfg } := by
  rw [step_of_hostEvent h (by simp)]
  exact if_pos hidle

/-- In IDLE with no fault recorded the start event is the start step (R166). -/
theorem step_of_start {s : State} {rest : List HostEvent} (h : s.inbox = .start :: rest) (hidle : s.phase = .idle)
    (hfr : s.fr = none) : step s = .next (seqStart .start { s with inbox := rest }) := by
  rw [step_of_hostEvent h (by simp)]
  exact if_pos (startable_iff.mpr ⟨hidle, hfr⟩)

/-- The host's triple for the chunk, where the list holds one (R163). -/
theorem chunkTriple_of_getElem? {s : State} {f : FrameTriple} (h : s.cfg.frames[s.cidx]? = some f) :
    chunkTriple s = f := by
  rw [chunkTriple, h, Option.getD_some]

/-- What an accepting answer does to the sink (R169). -/
theorem sinkWrite_of_accepted {k : Sink} (h : (sinkDecision k).1 = true) (txt : Text) :
    (sinkWrite txt k).2.text = k.text ++ txt ∧ (sinkWrite txt k).2.answers = (sinkDecision k).2 := by
  simp [sinkWrite, h]

theorem sinkDecision_cons {k : Sink} {b : Bool} {rest : List Bool} (h : k.answers = b :: rest) :
    sinkDecision k = (b, rest) := by
  simp [sinkDecision, h]

/-- FIXED mode's frame word is the sentinel (R163). -/
theorem ClosedChunk.word_fixed {s t : State} {w : Word} (h : ClosedChunk s t w) (hmode : s.cfg.mode = .fixed) :
    w = 0xe8005000eb00#48 := by
  have henc := h.encoded
  rw [hmode] at henc
  exact (Except.ok.inj henc).symm

/-- GENERAL mode's frame word is ENC.FRAME of the chunk's triple (R163). -/
theorem ClosedChunk.word_general {s t : State} {w : Word} (h : ClosedChunk s t w) (hmode : s.cfg.mode = .general) :
    w.toNat = frameSum (chunkTriple s) := by
  have henc := h.encoded
  rw [hmode] at henc
  exact (encFrame_ok_iff.mp henc).2

/-- Settles O34: of the outcomes of an accepted step only the data word leaves room in the chunk. -/
theorem dataStepEmitsOneSampledWord : Obligations.DataStepEmitsOneSampledWord := by
  intro s rest hinbox hrun hfr hw hanswers
  have hdecision := sinkDecision_cons hanswers
  obtain ⟨t, hadvance, hstep⟩ := step_of_running hinbox hrun hfr hw.le
  rcases seqAdvance_accepted hadvance (tripleOk_of_lt hw) (by rw [hdecision]) with ⟨w, h⟩ | ⟨w, h⟩
  · obtain ⟨htext, hrest⟩ := sinkWrite_of_accepted h.accepted (hexToken w.toNat ++ [' '])
    refine ⟨t, w, hstep, h.wf, h.sampled, ?_⟩
    rw [h.eq]
    simp [hrun, hfr, hinbox, htext, hrest, hdecision]
  · exact absurd h.before hw.ne

/-- Settles O35: of the outcomes of an accepted step only the frame word comes after `N` data words. -/
theorem frameStepClosesTheChunk : Obligations.FrameStepClosesTheChunk := by
  intro s rest hinbox hrun hfr hw hanswers htriple
  have hdecision := sinkDecision_cons hanswers
  have hok : TripleOk s := fun _ hmode => by
    obtain ⟨f, hf, hlegal⟩ := htriple hmode
    rwa [chunkTriple_of_getElem? hf]
  obtain ⟨t, hadvance, hstep⟩ := step_of_running hinbox hrun hfr hw.le
  rcases seqAdvance_accepted hadvance hok (by rw [hdecision]) with ⟨w, h⟩ | ⟨w, h⟩
  · exact absurd hw h.before.ne
  · obtain ⟨htext, hrest⟩ := sinkWrite_of_accepted h.accepted (hexToken w.toNat ++ s.cfg.lineBreak)
    refine ⟨t, w, hstep, h.word_fixed, fun hmode => ?_, ?_⟩
    · obtain ⟨f, hf, -⟩ := htriple hmode
      exact ⟨f, hf, chunkTriple_of_getElem? hf ▸ h.word_general hmode⟩
    · rw [h.eq]
      simp [hrun, hfr, hinbox, htext, hrest, hdecision]

/-- Settles O36: the step is rejected before the sink is asked. -/
theorem badHostTripleFaultsTheRun : Obligations.BadHostTripleFaultsTheRun := by
  intro s f n hinbox hrun hfr hw hmode hf hfirst
  obtain ⟨t, hadvance, hstep⟩ := step_of_running hinbox hrun hfr hw.le
  have h := seqAdvance_rejected hadvance hw hmode (chunkTriple_of_getElem? hf ▸ hfirst)
  exact ⟨t, hstep, h.phase, h.fr, h.faulted, h.out, h.widx, h.cidx, h.cfg, h.src, h.sink, h.inbox.trans hinbox⟩

/-- Settles O37: with a triple that can be encoded, a refused write is the only outcome. -/
theorem refusedWriteFaultsTheRun : Obligations.RefusedWriteFaultsTheRun := by
  intro s rest hinbox hrun hfr hanswers hposition
  have hle : s.widx ≤ s.cfg.n := hposition.elim le_of_lt fun h => h.1.le
  have hok : TripleOk s := hposition.elim tripleOk_of_lt fun h _ => h.2
  obtain ⟨t, hadvance, hstep⟩ := step_of_running hinbox hrun hfr hle
  obtain ⟨op, h⟩ := seqAdvance_refused hadvance hok (by rw [sinkDecision_cons hanswers])
  exact ⟨t, hstep, h.phase, ⟨op, h.fr⟩, h.faulted, h.out, h.widx, h.cidx, h.cfg, h.inbox.trans hinbox⟩

/-- Settles O38: the three cases of the start step. -/
theorem startChecksPositivity : Obligations.StartChecksPositivity := by
  intro s rest hinbox hidle hfr
  refine ⟨_, step_of_start hinbox hidle hfr, ?_⟩
  rcases seqStart_cases .start { s with inbox := rest } with ⟨hc, h⟩ | ⟨hc, hn, h⟩ | ⟨hc, hn, h⟩
  · rw [h]
    exact ⟨rfl, rfl, rfl, rfl, rfl, fun _ => ⟨rfl, by simp [hfr, configInvalid], seqFault_faulted _ _ _⟩,
      fun hc' => absurd hc hc', fun hc' => absurd hc hc'⟩
  · rw [h]
    exact ⟨rfl, rfl, rfl, rfl, rfl, fun hc' => absurd hc' hc,
      fun _ _ => ⟨rfl, by simp [hfr, configInvalid], seqFault_faulted _ _ _⟩, fun _ hn' => absurd hn hn'⟩
  · rw [h]
    exact ⟨rfl, rfl, rfl, rfl, rfl, fun hc' => absurd hc' hc, fun _ hn' => absurd hn' hn,
      fun _ _ => ⟨rfl, hfr, rfl, rfl⟩⟩

/-- Settles O60: SEQ's step does not look at the host's events, so the one that `letRun` takes is the one it takes with
nothing presented. -/
theorem letRunTakesTheStepOfSeq : Obligations.LetRunTakesTheStepOfSeq := by
  intro s rest hinbox
  have hletRun : step s = .next ((seqAdvance { s with inbox := rest }).getD { s with inbox := rest }) :=
    step_of_hostEvent hinbox (by simp)
  have hseq : step { s with inbox := [] } = seqTurn { s with inbox := [] } := rfl
  rw [hletRun, hseq, seqTurn, seqAdvance_withInbox s rest, seqAdvance_withInbox s []]
  cases seqAdvance s with
  | none => exact ⟨by simp, fun _ => rfl⟩
  | some t => exact ⟨by simp, fun h => absurd rfl (h _)⟩

/-- Settles O44: the first `n` words of a well-formed chunk are data words, the last is a frame word, and the kinds of
the two differ. -/
theorem frameKindMarksChunkEnds : Obligations.FrameKindMarksChunkEnds := by
  intro n ch i w hwf hi
  simp only [chunkWf, Bool.and_eq_true, decide_eq_true_eq, List.all_eq_true] at hwf
  obtain ⟨⟨hlen, hdata⟩, hframe⟩ := hwf
  obtain ⟨hlt, hget⟩ := List.getElem?_eq_some_iff.mp hi
  rcases (show i ≤ n by omega).lt_or_eq with hin | rfl
  · have hkind := kind_of_wfData (hdata w (List.mem_iff_getElem?.mpr ⟨i, by rw [List.getElem?_take_of_lt hin, hi]⟩))
    simp [hkind, hin.ne]
  · have hkind := kind_of_wfFrameOrK (hframe w (List.mem_iff_getElem?.mpr ⟨0, by rw [List.getElem?_drop, ← hi]; rfl⟩))
    simp [hkind]

end Sys2Proof.Machine
end

section
/-! PROOFS. Whole runs (R161, R162, R213): GEN.CHUNK and GEN.OUTPUT as the steps of SEQ from the state a start leaves,
where such a run stands after each step, and how it ends. -/

namespace Sys2Proof.Machine

/-! ### The procedures as runs -/

/-- The state in which a run of `c` chunks of `n` data words begins: configured and started (R166). -/
def beginRun (c n : Nat) (s : State) : State :=
  { s with cfg := { s.cfg with c := c, n := n }, widx := 0, cidx := 0, phase := .run }

/-- The state in which such a run ends: after a step for each of its words, or where SEQ stopped before (R213). -/
def endRun (c n : Nat) (s : State) : State := seqRun (c * (n + 1)) (beginRun c n s)

/-- The start step begins the run when both counts are positive (R166). -/
theorem seqStart_eq_beginRun {c n : Nat} (hc : 1 ≤ c) (hn : 1 ≤ n) (op : OpName) (s : State) :
    seqStart op { s with cfg := { s.cfg with c := c, n := n } } = beginRun c n s := by
  rcases seqStart_cases op { s with cfg := { s.cfg with c := c, n := n } } with ⟨h, -⟩ | ⟨-, h, -⟩ | ⟨-, -, h⟩
  · exact absurd h (Nat.one_le_iff_ne_zero.mp hc)
  · exact absurd h (Nat.one_le_iff_ne_zero.mp hn)
  · exact h

/-- The operation `i` is a run of `c` chunks of `n` data words that gives its caller `r` of the state it ends in: the
lines of GEN.OUTPUT, or the line of GEN.CHUNK (R161, R162). -/
def IsRunOf (c n : Nat) (lineBreak : Text) (i : Instr) (r : State → Result) : Prop :=
  (i = .genOutput c n ∧ r = fun u => .lines (u.out.closed.map (lineText lineBreak))) ∨
  (c = 1 ∧ i = .genChunk n ∧ r = fun u => .text (u.out.closed.map (lineText lineBreak)).flatten)

theorem exists_isRunOf {c n : Nat} {i : Instr} (h : i = .genOutput c n ∨ (c = 1 ∧ i = .genChunk n))
    (lineBreak : Text) : ∃ r, IsRunOf c n lineBreak i r := by
  rcases h with h | ⟨hc, h⟩
  · exact ⟨_, .inl ⟨h, rfl⟩⟩
  · exact ⟨_, .inr ⟨hc, h, rfl⟩⟩

/-- A run of SEQ's steps keeps the configuration and the host's events (R16, R196). -/
theorem seqRun_keeps_cfg_inbox (k : Nat) (s : State) :
    (seqRun k s).cfg = s.cfg ∧ (seqRun k s).inbox = s.inbox :=
  seqRun_keeps (P := fun u => u.cfg = s.cfg ∧ u.inbox = s.inbox)
    (fun _ _ hu h => ⟨(seqAdvance_keeps h).1.trans hu.1, (seqAdvance_keeps h).2.trans hu.2⟩) k s ⟨rfl, rfl⟩

theorem endRun_cfg (c n : Nat) (s : State) : (endRun c n s).cfg = { s.cfg with c := c, n := n } :=
  (seqRun_keeps_cfg_inbox _ _).1

theorem endRun_inbox (c n : Nat) (s : State) : (endRun c n s).inbox = s.inbox := (seqRun_keeps_cfg_inbox _ _).2

/-- From IDLE the procedures end where the run ends, with the caller's outcome put in (R161, R162; log 15). -/
theorem exec_isRunOf {s : State} {c n : Nat} {i : Instr} {r : State → Result} (h : IsRunOf c n s.cfg.lineBreak i r)
    (hidle : s.phase = .idle) (hfr : s.fr = none) (hc : 1 ≤ c) (hn : 1 ≤ n) :
    exec i s = .next (finishRun (r (endRun c n s)) (endRun c n s)) := by
  have hready := startable_iff.mpr ⟨hidle, hfr⟩
  have hrun (op : OpName) : runAll op c n s = endRun c n s := by rw [runAll, seqStart_eq_beginRun hc hn, endRun]
  have hlines : closedLines (endRun c n s) = (endRun c n s).out.closed.map (lineText s.cfg.lineBreak) := by
    rw [closedLines, endRun_cfg]
  rcases h with ⟨rfl, rfl⟩ | ⟨rfl, rfl, rfl⟩
  · rw [exec, execGenOutput, if_pos hready, hrun, hlines]
  · rw [exec, execGenChunk, if_pos hready, hrun, hlines]

/-- A run that stops before its end has no outcome but the fault it raised. -/
theorem finishRun_of_faulted {s : State} (h : s.phase = .faulted) (r : Result) : finishRun r s = s :=
  if_neg (by simp [h])

theorem finishRun_of_done {s : State} (h : s.phase = .done) (r : Result) : finishRun r s = { s with result := r } :=
  if_pos h

/-! ### Steps of SEQ in sequence -/

theorem seqRun_of_none {s : State} (h : seqAdvance s = none) (k : Nat) : seqRun k s = s := by
  cases k with
  | zero => rfl
  | succ k => rw [seqRun, h]

theorem seqRun_succ_of_some {s t : State} (h : seqAdvance s = some t) (k : Nat) : seqRun (k + 1) s = seqRun k t := by
  rw [seqRun, h]

theorem seqRun_add (j k : Nat) (s : State) : seqRun (j + k) s = seqRun k (seqRun j s) := by
  induction j generalizing s with
  | zero => rw [Nat.zero_add, seqRun]
  | succ j ih =>
    cases h : seqAdvance s with
    | none => simp only [seqRun_of_none h]
    | some t => rw [Nat.add_right_comm, seqRun_succ_of_some h, seqRun_succ_of_some h, ih]

/-- The step after `j` steps is step `j + 1`. -/
theorem seqRun_next {j : Nat} {s t : State} (h : seqAdvance (seqRun j s) = some t) : seqRun (j + 1) s = t := by
  rw [seqRun_add, seqRun_succ_of_some h, seqRun]

/-- A fault at step `j + 1` is where any longer run ends (R170). -/
theorem seqRun_eq_of_faulted {j m : Nat} {s t : State} (h : seqAdvance (seqRun j s) = some t)
    (hfaulted : t.phase = .faulted) (hj : j < m) : seqRun m s = t := by
  obtain ⟨k, rfl⟩ := Nat.exists_eq_add_of_lt hj
  rw [Nat.add_right_comm, seqRun_add, seqRun_next h, seqRun_stopped (by simp [hfaulted])]

/-- With nothing presented, a run of at most `m` steps of SEQ is `k ≤ m` steps of the machine, all of them enabled. -/
theorem exists_core_run_eq_seqRun (m : Nat) {s : State} (hinbox : s.inbox = []) :
    ∃ k ≤ m, seqRun m s = seqRun k s ∧ Host.Core.run Sys2Proof.core k s = .next (seqRun k s) := by
  induction m generalizing s with
  | zero => exact ⟨0, le_rfl, rfl, rfl⟩
  | succ m ih =>
    cases h : seqAdvance s with
    | none => exact ⟨0, Nat.zero_le _, seqRun_of_none h _, rfl⟩
    | some t =>
      obtain ⟨k, hk, heq, hcore⟩ := ih ((seqAdvance_keeps h).2.trans hinbox)
      refine ⟨k + 1, Nat.succ_le_succ hk, ?_, ?_⟩
      · rw [seqRun_succ_of_some h, seqRun_succ_of_some h, heq]
      · rw [core_run_next (step_of_seqAdvance hinbox h), hcore, seqRun_succ_of_some h]

/-- The host's configuration and start bring the machine from IDLE to where a run begins (R166, R217). -/
theorem core_run_configure_start {s : State} {c n : Nat} (hidle : s.phase = .idle) (hfr : s.fr = none)
    (hinbox : s.inbox = []) (hc : 1 ≤ c) (hn : 1 ≤ n) (k : Nat) :
    Host.Core.run Sys2Proof.core (2 + k) { s with inbox := [.configure { s.cfg with c := c, n := n }, .start] } =
      Host.Core.run Sys2Proof.core k (beginRun c n s) := by
  have hconfigure := step_of_configure
    (s := { s with inbox := [.configure { s.cfg with c := c, n := n }, .start] }) rfl hidle
  have hstart := step_of_start (s := { s with inbox := [.start], cfg := { s.cfg with c := c, n := n } }) rfl hidle hfr
  have hnoEvent : beginRun c n { s with inbox := [] } = beginRun c n s := by rw [← hinbox]
  have hbegin := (seqStart_eq_beginRun hc hn .start { s with inbox := [] }).trans hnoEvent
  rw [Nat.add_comm]
  exact (core_run_next hconfigure (k + 1)).trans ((core_run_next hstart k).trans (congrArg _ hbegin))

/-! ### Where a run stands -/

/-- The run of configuration `cfg` stands after `j` words, with no fault (R13, R14). -/
structure Standing (cfg : RunConfig) (j : Nat) (u : State) : Prop where
  cfg_eq : u.cfg = cfg
  fr : u.fr = none
  widx_le : u.widx ≤ cfg.n
  words : u.cidx * (cfg.n + 1) + u.widx = j
  phase : (u.phase = .run ∧ u.cidx < cfg.c) ∨ (u.phase = .done ∧ u.cidx = cfg.c ∧ u.widx = 0)

theorem standing_beginRun {s : State} (hfr : s.fr = none) {c : Nat} (hc : 1 ≤ c) (n : Nat) :
    Standing (beginRun c n s).cfg 0 (beginRun c n s) :=
  ⟨rfl, hfr, Nat.zero_le _, by simp [beginRun], .inl ⟨rfl, hc⟩⟩

/-- A run that is not DONE has words left (R165). -/
theorem Standing.lt_of_run {cfg : RunConfig} {j : Nat} {u : State} (h : Standing cfg j u) (hrun : u.phase = .run) :
    j < cfg.c * (cfg.n + 1) := by
  obtain ⟨-, hinside⟩ := h.phase.resolve_right (by simp [hrun])
  have hmul := Nat.mul_le_mul_right (cfg.n + 1) (Nat.succ_le_of_lt hinside)
  have hwords := h.words
  have hle := h.widx_le
  rw [Nat.succ_mul] at hmul
  omega

/-- A run that is DONE has emitted every word (R165, R213). -/
theorem Standing.eq_of_done {cfg : RunConfig} {j : Nat} {u : State} (h : Standing cfg j u) (hdone : u.phase = .done) :
    j = cfg.c * (cfg.n + 1) ∧ u.cidx = cfg.c ∧ u.widx = 0 := by
  obtain ⟨-, hcidx, hwidx⟩ := h.phase.resolve_left (by simp [hdone])
  exact ⟨by rw [← h.words, hcidx, hwidx, Nat.add_zero], hcidx, hwidx⟩

/-- Before the last word the run goes on. -/
theorem Standing.run_of_lt {cfg : RunConfig} {j : Nat} {u : State} (h : Standing cfg j u)
    (hj : j < cfg.c * (cfg.n + 1)) : u.phase = .run := by
  rcases h.phase with ⟨hrun, -⟩ | ⟨hdone, -⟩
  · exact hrun
  · exact absurd (h.eq_of_done hdone).1 hj.ne

/-- After the last word the run is DONE. -/
theorem Standing.done {cfg : RunConfig} {u : State} (h : Standing cfg (cfg.c * (cfg.n + 1)) u) : u.phase = .done := by
  rcases h.phase with ⟨hrun, -⟩ | ⟨hdone, -⟩
  · exact absurd (h.lt_of_run hrun) (lt_irrefl _)
  · exact hdone

/-- Before the last word SEQ has a step (R164, R165). -/
theorem Standing.exists_seqAdvance {cfg : RunConfig} {j : Nat} {u : State} (h : Standing cfg j u)
    (hj : j < cfg.c * (cfg.n + 1)) : ∃ t, seqAdvance u = some t :=
  seqAdvance_isSome_iff.mpr ⟨h.run_of_lt hj, h.fr, h.cfg_eq ▸ h.widx_le⟩

/-- The words emitted give the counters (R13). -/
theorem Standing.counters {cfg : RunConfig} {j : Nat} {u : State} (h : Standing cfg j u) :
    u.cidx = j / (cfg.n + 1) ∧ u.widx = j % (cfg.n + 1) := by
  have hwords : u.widx + (cfg.n + 1) * u.cidx = j := by rw [Nat.mul_comm, Nat.add_comm, h.words]
  have hunique := (Nat.div_mod_unique (Nat.succ_pos cfg.n)).mpr
    ⟨hwords, Nat.lt_succ_of_le h.widx_le⟩
  exact ⟨hunique.1.symm, hunique.2.symm⟩

theorem EmittedData.standing {cfg : RunConfig} {j : Nat} {u t : State} {w : Word} (h : EmittedData u t w)
    (hrun : u.phase = .run) (hu : Standing cfg j u) : Standing cfg (j + 1) t := by
  have hbefore := h.before
  have hphase := hu.phase.resolve_right (by simp [hrun])
  rw [hu.cfg_eq] at hbefore
  rw [h.eq]
  exact ⟨hu.cfg_eq, hu.fr, hbefore, congrArg (· + 1) hu.words, .inl hphase⟩

theorem ClosedChunk.standing {cfg : RunConfig} {j : Nat} {u t : State} {w : Word} (h : ClosedChunk u t w)
    (hrun : u.phase = .run) (hu : Standing cfg j u) : Standing cfg (j + 1) t := by
  have hbefore := h.before
  have hinside := (hu.phase.resolve_right (by simp [hrun])).2
  have hwords := hu.words
  rw [hu.cfg_eq] at hbefore
  rw [h.eq]
  refine ⟨hu.cfg_eq, hu.fr, Nat.zero_le _, ?_, ?_⟩
  · simp only [emitFrame_cidx, emitFrame_widx, Nat.succ_mul]
    omega
  · simp only [emitFrame_cidx, emitFrame_widx, emitFrame_phase, hu.cfg_eq, hrun]
    by_cases hlast : u.cidx + 1 = cfg.c
    · exact .inr ⟨if_pos hlast, hlast, trivial⟩
    · exact .inl ⟨if_neg hlast, by omega⟩

/-- After `j` steps, at most one for each word, the run stands after `j` words or has faulted (R213). -/
theorem standing_or_faulted {s : State} (hs : Standing s.cfg 0 s) {j : Nat} (hj : j ≤ s.cfg.c * (s.cfg.n + 1)) :
    Standing s.cfg j (seqRun j s) ∨ (seqRun j s).phase = .faulted := by
  induction j with
  | zero => exact .inl hs
  | succ j ih =>
    rcases ih (Nat.le_of_succ_le hj) with h | h
    · obtain ⟨t, hadvance⟩ := h.exists_seqAdvance hj
      have hrun := h.run_of_lt hj
      rw [seqRun_next hadvance]
      cases seqAdvance_outcome hadvance with
      | emitted w ht => exact .inl (ht.standing hrun h)
      | closed w ht => exact .inl (ht.standing hrun h)
      | refused op ht => exact .inr ht.phase
      | rejected n ht => exact .inr ht.phase
    · rw [seqRun_add, seqRun_stopped (by simp [h])]
      exact .inr h

/-- A whole run is DONE or FAULTED at its end (R213). -/
theorem endRun_done_or_faulted {s : State} (hfr : s.fr = none) {c : Nat} (hc : 1 ≤ c) (n : Nat) :
    (endRun c n s).phase = .done ∨ (endRun c n s).phase = .faulted :=
  (standing_or_faulted (standing_beginRun hfr hc n) le_rfl).imp_left Standing.done

/-- Settles O42: the machine takes the configuration, the start, and then the enabled steps of the run; it stands after
`k` words, so a run that is DONE has taken them all. -/
theorem genOutputIsTheRunOfSeqSteps : Obligations.GenOutputIsTheRunOfSeqSteps := by
  intro s c n hidle hfr hinbox hc hn i r hrun
  obtain ⟨k, hk, heq, hcore⟩ := exists_core_run_eq_seqRun (c * (n + 1)) (s := beginRun c n s) hinbox
  refine ⟨_, endRun c n s, k, exec_isRunOf hrun hidle hfr hc hn, hk, ?_, ?_⟩
  · rw [core_run_configure_start hidle hfr hinbox hc hn, hcore, ← heq]
    rfl
  · rcases endRun_done_or_faulted hfr hc n with hdone | hfaulted
    · have hdone' : (seqRun k (beginRun c n s)).phase = .done := heq ▸ hdone
      have hstanding := (standing_or_faulted (standing_beginRun hfr hc n) hk).resolve_right (by simp [hdone'])
      exact .inl ⟨hdone, (hstanding.eq_of_done hdone').1, finishRun_of_done hdone _⟩
    · exact .inr ⟨hfaulted, finishRun_of_faulted hfaulted _⟩

/-! ### How a run can end -/

/-- How a run of SEQ can end: DONE, or FAULTED at a refused write, or, in GENERAL mode alone, at a triple out of range
(R162, R169, R170, R184). -/
def EndsAs (u : State) : Prop :=
  (Finished u ∧ u.fr = none ∧ u.fault = false) ∨
  (u.phase = .faulted ∧ Faulted .sinkFailure .none 3#3 u ∧
    (u.fr = some ⟨.sinkFailure, .none, .dataStep⟩ ∨ u.fr = some ⟨.sinkFailure, .none, .frameStep⟩)) ∨
  (u.cfg.mode = .general ∧ u.phase = .faulted ∧
    ∃ f ∈ [.qchipCollisionCount, .hitCounter, .frameCounter], Faulted .rangeViolation f 1#3 u ∧
      u.fr = some ⟨.rangeViolation, f, .encFrame⟩)

/-- Each step of SEQ leaves a run going on, or ended in one of these ways. -/
theorem seqAdvance_endsAs {u t : State} (h : seqAdvance u = some t) : t.phase = .run ∨ EndsAs t := by
  obtain ⟨hrun, hfr, -⟩ := seqAdvance_cases h
  cases seqAdvance_outcome h with
  | emitted w h =>
    rw [h.eq]
    exact .inl hrun
  | closed w h =>
    rw [h.eq]
    by_cases hlast : u.cidx + 1 = u.cfg.c
    · exact .inr (.inl ⟨if_pos hlast, hfr, rfl⟩)
    · exact .inl ((if_neg hlast).trans hrun)
  | refused op h =>
    refine .inr (.inr (.inl ⟨h.phase, h.faulted, ?_⟩))
    obtain rfl | rfl := h.op_step
    · exact .inl h.fr
    · exact .inr h.fr
  | rejected n h =>
    exact .inr (.inr (.inr ⟨h.cfg ▸ h.mode, h.phase, n, frameChecks_field h.first, h.faulted, h.fr⟩))

/-- Settles O58: a whole run is over at its end, and each of its steps leaves it going on or ended as stated. -/
theorem genProceduresEndDoneOrFaulted : Obligations.GenProceduresEndDoneOrFaulted := by
  intro s c n i hi hidle hfr hc hn
  obtain ⟨r, hrun⟩ := exists_isRunOf hi s.cfg.lineBreak
  have hends : (endRun c n s).phase = .run ∨ EndsAs (endRun c n s) :=
    seqRun_keeps (P := fun u => u.phase = .run ∨ EndsAs u) (fun _ _ _ h => seqAdvance_endsAs h) _ _ (.inl rfl)
  have hcfg := endRun_cfg c n s
  have hover : (endRun c n s).phase ≠ .run := by
    rcases endRun_done_or_faulted hfr hc n with h | h <;> simp [h]
  refine ⟨_, exec_isRunOf hrun hidle hfr hc hn, ?_⟩
  rcases hends.resolve_left hover with ⟨hdone, hfr', hfault⟩ | ⟨hfaulted, h⟩ | ⟨hmode, hfaulted, h⟩
  · rw [finishRun_of_done hdone]
    exact ⟨hcfg, endRun_inbox c n s, .inl ⟨hdone, hfr', hfault⟩⟩
  · rw [finishRun_of_faulted hfaulted]
    exact ⟨hcfg, endRun_inbox c n s, .inr (.inl ⟨hfaulted, h⟩)⟩
  · rw [finishRun_of_faulted hfaulted]
    rw [hcfg] at hmode
    exact ⟨hcfg, endRun_inbox c n s, .inr (.inr ⟨hmode, hfaulted, h⟩)⟩

/-- A run whose start step faults takes no step, and gives the caller the fault (R187). -/
theorem runAll_of_startFault {op : OpName} {c n : Nat} {s : State} {f : FaultInfo}
    (h : seqStart op { s with cfg := { s.cfg with c := c, n := n } } =
      seqFault f op { s with cfg := { s.cfg with c := c, n := n } }) (r : Result) :
    finishRun r (runAll op c n s) = seqFault f op { s with cfg := { s.cfg with c := c, n := n } } := by
  have hrun : runAll op c n s = seqFault f op { s with cfg := { s.cfg with c := c, n := n } } := by
    rw [runAll, h, seqRun_stopped (by simp)]
  rw [hrun, finishRun_of_faulted rfl]

/-- Settles O39: with a zero count the start step faults, `C` before `N`, and the run is over. -/
theorem proceduresRejectEmptyCounts : Obligations.ProceduresRejectEmptyCounts := by
  intro s c n hidle hfr
  have hready := startable_iff.mpr ⟨hidle, hfr⟩
  refine ⟨⟨_, if_pos hready, ?_⟩, ⟨_, if_pos hready, ?_⟩, fun hc => ⟨_, if_pos hready, ?_⟩⟩
  · rw [runAll_of_startFault (f := configInvalid .numDataWords) rfl]
    exact ⟨seqFault_faulted _ _ _, rfl, by simp [hfr, configInvalid], rfl, rfl, rfl⟩
  · rw [runAll_of_startFault (f := configInvalid .numChunks) rfl]
    exact ⟨seqFault_faulted _ _ _, rfl, by simp [hfr, configInvalid], rfl, rfl, rfl⟩
  · have hstart : seqStart .genOutput { s with cfg := { s.cfg with c := c, n := 0 } } =
        seqFault (configInvalid .numDataWords) .genOutput { s with cfg := { s.cfg with c := c, n := 0 } } :=
      (if_neg (Nat.not_lt.mpr hc)).trans rfl
    rw [runAll_of_startFault hstart]
    exact ⟨seqFault_faulted _ _ _, rfl, by simp [hfr, configInvalid], rfl, rfl, rfl⟩

end Sys2Proof.Machine
end

section
/-! PROOFS. Runs that the sink accepts (R160, R162, R168): what the first `j` words of a run leave in OUT, at the sink
and at the source, to the end of the run or to the fault that stops it. -/

namespace Sys2Proof.Machine

/-! ### The text of OUT -/

/-- The text of an output stream whose last chunk may be open: the lines of the closed chunks, and each word of the open
one with its space (R39, R43). -/
def outText (lineBreak : Text) (o : OutStream) : Text :=
  streamText lineBreak o.closed ++ (o.openChunk.map fun x => hexToken x.toNat ++ [' ']).flatten

theorem outText_emit (lineBreak : Text) (closed : List (List Word)) (ws : List Word) (w : Word) :
    outText lineBreak ⟨closed, ws ++ [w]⟩ = outText lineBreak ⟨closed, ws⟩ ++ (hexToken w.toNat ++ [' ']) := by
  simp [outText]

theorem outText_close (lineBreak : Text) (closed : List (List Word)) (ws : List Word) (w : Word) :
    outText lineBreak ⟨closed ++ [ws ++ [w]], []⟩ =
      outText lineBreak ⟨closed, ws⟩ ++ (hexToken w.toNat ++ lineBreak) := by
  simp [outText, streamText, lineText, joinTokens_append_single]

theorem outText_of_closed (lineBreak : Text) {o : OutStream} (h : o.openChunk = []) :
    outText lineBreak o = streamText lineBreak o.closed := by
  simp [outText, h]

/-! ### The accepted part of a run -/

/-- `u` is where a run that began in `s` stands after `j` accepted words: what the sink has received and has still to
answer, what the source has given, and, once a word was emitted, ports without a fault. -/
structure Accepted (s : State) (j : Nat) (u : State) : Prop extends Standing s.cfg j u where
  answers : u.sink.answers = s.sink.answers.drop j
  text : u.sink.text = s.sink.text ++ outText s.cfg.lineBreak u.out
  draws_ge : s.src.draws + 7 * (u.cidx * s.cfg.n + u.widx) ≤ u.src.draws
  draws_le : u.src.draws ≤ s.src.draws + 8 * (u.cidx * s.cfg.n + u.widx)
  sentinel : s.cfg.mode = .fixed → ∀ ch ∈ u.out.closed, ch.getLast? = some 0xe8005000eb00#48
  ports : 0 < j → u.fault = false ∧ u.faultCause = 0#3 ∧ u.faultField = 0#5

theorem sinkDecision_answers (k : Sink) : (sinkDecision k).2 = k.answers.tail := by
  rcases k with ⟨text, _ | ⟨b, rest⟩, writes⟩ <;> rfl

/-- An accepted write in a run adds its text and uses up the sink's next answer. -/
theorem Accepted.after_write {s u : State} {j : Nat} (hu : Accepted s j u) (haccept : (sinkDecision u.sink).1 = true)
    (txt : Text) :
    (sinkWrite txt u.sink).2.text = s.sink.text ++ (outText s.cfg.lineBreak u.out ++ txt) ∧
    (sinkWrite txt u.sink).2.answers = s.sink.answers.drop (j + 1) := by
  obtain ⟨htext, hanswers⟩ := sinkWrite_of_accepted haccept txt
  rw [htext, hanswers, sinkDecision_answers, hu.text, hu.answers, List.append_assoc, List.tail_drop]
  exact ⟨rfl, rfl⟩

theorem EmittedData.next_accepted {s u t : State} {j : Nat} {w : Word} (h : EmittedData u t w) (hrun : u.phase = .run)
    (hu : Accepted s j u) : Accepted s (j + 1) t := by
  have hstanding := h.standing hrun hu.toStanding
  obtain ⟨htext, hanswers⟩ := hu.after_write h.accepted (hexToken w.toNat ++ [' '])
  have hdraws := (sampleFields_spec u.src).2
  have hge := hu.draws_ge
  have hle := hu.draws_le
  rw [h.eq] at hstanding ⊢
  exact
    { hstanding with
      answers := hanswers
      text := htext.trans (congrArg _ (outText_emit ..).symm)
      draws_ge := by simp only [emitData_cidx, emitData_widx, emitData_src]; omega
      draws_le := by simp only [emitData_cidx, emitData_widx, emitData_src]; omega
      sentinel := hu.sentinel
      ports := fun _ => ⟨rfl, rfl, rfl⟩ }

theorem ClosedChunk.next_accepted {s u t : State} {j : Nat} {w : Word} (h : ClosedChunk u t w) (hrun : u.phase = .run)
    (hu : Accepted s j u) : Accepted s (j + 1) t := by
  have hstanding := h.standing hrun hu.toStanding
  obtain ⟨htext, hanswers⟩ := hu.after_write h.accepted (hexToken w.toNat ++ u.cfg.lineBreak)
  have hwords : (u.cidx + 1) * s.cfg.n + 0 = u.cidx * s.cfg.n + u.widx := by
    rw [h.before, hu.cfg_eq, Nat.succ_mul, Nat.add_zero]
  have hlast : s.cfg.mode = .fixed → (u.out.openChunk ++ [w]).getLast? = some 0xe8005000eb00#48 := fun hmode => by
    rw [List.getLast?_concat, h.word_fixed (hu.cfg_eq ▸ hmode)]
  rw [h.eq] at hstanding ⊢
  exact
    { hstanding with
      answers := hanswers
      text := htext.trans (by rw [hu.cfg_eq]; exact congrArg _ (outText_close ..).symm)
      draws_ge := hwords ▸ hu.draws_ge
      draws_le := hwords ▸ hu.draws_le
      sentinel := fun hmode => List.forall_mem_append.mpr
        ⟨hu.sentinel hmode, List.forall_mem_singleton.mpr (hlast hmode)⟩
      ports := fun _ => ⟨rfl, rfl, rfl⟩ }

/-- In GENERAL mode the host has given a legal triple for each frame word among the first `j` words (R163). -/
def TriplesLegal (cfg : RunConfig) (j : Nat) : Prop :=
  cfg.mode = .general → ∀ y, y * (cfg.n + 1) + cfg.n < j → ∃ f, cfg.frames[y]? = some f ∧ FrameLegal f

theorem TriplesLegal.mono {cfg : RunConfig} {i j : Nat} (h : TriplesLegal cfg j) (hij : i ≤ j) : TriplesLegal cfg i :=
  fun hmode y hy => h hmode y (hy.trans_le hij)

theorem Standing.tripleOk {cfg : RunConfig} {j : Nat} {u : State} (hu : Standing cfg j u)
    (h : TriplesLegal cfg (j + 1)) : TripleOk u := by
  intro hw hmode
  have hwords := hu.words
  rw [hw] at hwords
  rw [hu.cfg_eq] at hmode hwords
  obtain ⟨f, hf, hlegal⟩ := h hmode u.cidx (by omega)
  rwa [chunkTriple_of_getElem? (hu.cfg_eq ▸ hf)]

/-- Answers that begin with `j + 1` acceptances begin with `j` of them, and the next one accepts. -/
theorem take_and_drop_of_take_succ {answers : List Bool} {j : Nat}
    (h : answers.take (j + 1) = List.replicate (j + 1) true) :
    answers.take j = List.replicate j true ∧ answers.drop j = true :: answers.drop (j + 1) := by
  have hget : answers[j]? = some true := by
    rw [← List.getElem?_take_of_lt (Nat.lt_succ_self j), h, List.getElem?_replicate_of_lt (Nat.lt_succ_self j)]
  obtain ⟨hlt, heq⟩ := List.getElem?_eq_some_iff.mp hget
  refine ⟨?_, by rw [List.drop_eq_getElem_cons hlt, heq]⟩
  have htake := congrArg (List.take j) h
  simpa [List.take_take] using htake

/-- As long as the sink accepts and the triples are legal, a run emits a word a step (R164, R165). -/
theorem accepted_seqRun {s : State} (hs : Accepted s 0 s) {j : Nat} (hj : j ≤ s.cfg.c * (s.cfg.n + 1))
    (haccepts : SinkAccepts j s) (hlegal : TriplesLegal s.cfg j) : Accepted s j (seqRun j s) := by
  induction j with
  | zero => exact hs
  | succ j ih =>
    obtain ⟨hbefore, hnext⟩ := take_and_drop_of_take_succ haccepts
    have hu := ih (Nat.le_of_succ_le hj) hbefore (hlegal.mono (Nat.le_succ j))
    obtain ⟨t, hadvance⟩ := hu.exists_seqAdvance hj
    have hrun := hu.run_of_lt hj
    have haccept : (sinkDecision (seqRun j s).sink).1 = true := by
      rw [sinkDecision_cons (hu.answers.trans hnext)]
    rw [seqRun_next hadvance]
    rcases seqAdvance_accepted hadvance (hu.tripleOk hlegal) haccept with ⟨w, h⟩ | ⟨w, h⟩
    · exact h.next_accepted hrun hu
    · exact h.next_accepted hrun hu

theorem accepted_beginRun {s : State} (hready : ReadyToRun s) {c : Nat} (hc : 1 ≤ c) (n : Nat) :
    Accepted (beginRun c n s) 0 (beginRun c n s) := by
  obtain ⟨-, hfr, hout⟩ := hready
  exact
    { standing_beginRun hfr hc n with
      answers := rfl
      text := by simp [beginRun, hout, OutStream.empty, outText, streamText]
      draws_ge := by simp [beginRun]
      draws_le := by simp [beginRun]
      sentinel := by simp [beginRun, hout, OutStream.empty]
      ports := fun h => absurd h (lt_irrefl 0) }

/-- A run from an empty OUT keeps the invariants of R22. -/
theorem runInv_seqRun {s : State} (hready : ReadyToRun s) {c : Nat} (hc : 1 ≤ c) (n k : Nat) :
    RunInv (seqRun k (beginRun c n s)) := by
  obtain ⟨-, hfr, hout⟩ := hready
  refine seqRun_keeps (fun _ _ => RunInv.seqAdvance) k _ ?_
  constructor <;> simp [beginRun, hfr, hout, OutStream.empty, Nat.one_le_iff_ne_zero.mp hc, Nat.pos_of_ne_zero]

/-! ### Runs to the end -/

/-- `u` is the end of a run of `c` chunks of `n` data words that began in `s`, each of whose words the sink accepted
(R160, R162, R168). -/
structure CompleteRun (s : State) (c n : Nat) (u : State) : Prop where
  done : u.phase = .done
  fr : u.fr = none
  cidx : u.cidx = c
  widx : u.widx = 0
  openChunk : u.out.openChunk = []
  count : u.out.closed.length = c
  wf : ∀ ch ∈ u.out.closed, chunkWf n ch = true
  sentinel : s.cfg.mode = .fixed → ∀ ch ∈ u.out.closed, ch.getLast? = some 0xe8005000eb00#48
  ports : u.fault = false ∧ u.faultCause = 0#3 ∧ u.faultField = 0#5
  text : u.sink.text = s.sink.text ++ streamText s.cfg.lineBreak u.out.closed
  draws_ge : s.src.draws + 7 * (c * n) ≤ u.src.draws
  draws_le : u.src.draws ≤ s.src.draws + 8 * (c * n)
  cfg : u.cfg = { s.cfg with c := c, n := n }
  inbox : u.inbox = s.inbox

/-- A run that the sink accepts, with legal triples, is complete at its end: no chunk is open there, so the sink has
exactly the lines of the closed ones. -/
theorem completeRun_endRun {s : State} {c n : Nat} (hready : ReadyToRun s) (hc : 1 ≤ c)
    (haccepts : SinkAccepts (c * (n + 1)) s)
    (hlegal : s.cfg.mode = .general → ∀ i < c, ∃ f, s.cfg.frames[i]? = some f ∧ FrameLegal f) :
    CompleteRun s c n (endRun c n s) := by
  have htriples : TriplesLegal (beginRun c n s).cfg (c * (n + 1)) := fun hmode y hy =>
    hlegal hmode y (Nat.lt_of_mul_lt_mul_right ((Nat.le_add_right _ n).trans_lt hy))
  have hu : Accepted (beginRun c n s) (c * (n + 1)) (endRun c n s) :=
    accepted_seqRun (accepted_beginRun hready hc n) le_rfl haccepts htriples
  have hinv : RunInv (endRun c n s) := runInv_seqRun hready hc n _
  have hcfg := endRun_cfg c n s
  obtain ⟨-, hcidx, hwidx⟩ := hu.eq_of_done hu.done
  have hopen : (endRun c n s).out.openChunk = [] := List.eq_nil_of_length_eq_zero (hinv.open_count.trans hwidx)
  have hge := hu.draws_ge
  have hle := hu.draws_le
  rw [hcidx, hwidx] at hge hle
  exact
    { done := hu.done
      fr := hu.fr
      cidx := hcidx
      widx := hwidx
      openChunk := hopen
      count := hinv.closed_count.trans hcidx
      wf := by simpa only [hcfg] using hinv.closed_wf
      sentinel := hu.sentinel
      ports := hu.ports (Nat.mul_pos hc n.succ_pos)
      text := hu.text.trans (congrArg _ (outText_of_closed _ hopen))
      draws_ge := hge
      draws_le := hle
      cfg := hcfg
      inbox := endRun_inbox c n s }

/-- Settles O41: GEN.OUTPUT gives the lines of a complete run. -/
theorem genOutputWritesTheTextOfOut : Obligations.GenOutputWritesTheTextOfOut := by
  intro s c n hready hc hn haccepts hlegal
  have h := completeRun_endRun hready hc haccepts hlegal
  refine ⟨_, exec_isRunOf (.inl ⟨rfl, rfl⟩) hready.1 hready.2.1 hc hn, ?_⟩
  rw [finishRun_of_done h.done]
  exact ⟨h.done, h.fr, h.cidx, h.widx, h.openChunk, h.count, h.wf, h.sentinel, ⟨rfl, h.ports⟩, h.text, h.draws_ge,
    h.draws_le, h.cfg, h.inbox⟩

/-- Settles O40: GEN.CHUNK gives the line of a complete run of one chunk. -/
theorem genChunkClosesOneChunk : Obligations.GenChunkClosesOneChunk := by
  intro s n hready hn haccepts hlegal
  have h : CompleteRun s 1 n (endRun 1 n s) := by
    refine completeRun_endRun hready le_rfl (by rwa [Nat.one_mul]) fun hmode i hi => ?_
    rw [Nat.lt_one_iff.mp hi]
    exact hlegal hmode
  obtain ⟨ch, hclosed⟩ := List.length_eq_one_iff.mp h.count
  have hout : (endRun 1 n s).out = ⟨[ch], []⟩ := by rw [← hclosed, ← h.openChunk]
  have hmem : ch ∈ (endRun 1 n s).out.closed := by simp [hclosed]
  have htext := h.text
  have hge := h.draws_ge
  have hle := h.draws_le
  rw [Nat.one_mul] at hge hle
  refine ⟨_, ch, exec_isRunOf (.inr ⟨rfl, rfl, rfl⟩) hready.1 hready.2.1 le_rfl hn, ?_⟩
  rw [finishRun_of_done h.done]
  refine ⟨hout, h.wf ch hmem, fun hmode => h.sentinel hmode ch hmem, ⟨?_, h.ports⟩, ?_, h.done, h.cidx, h.widx, h.fr,
    hge, hle, h.cfg, h.inbox⟩
  · simp [hclosed]
  · simpa [hclosed, streamText] using htext

/-! ### Runs that a fault stops -/

/-- From an empty OUT, where step `j + 1` of a procedure's run faults after `j` words, the procedure has ended there:
OUT holds the `j` words, in well-formed closed chunks and well-formed data words of the open one (R22, R170). -/
theorem exec_of_faultedStep {s t : State} {c n j : Nat} {i : Instr} {f : FaultInfo} {op : OpName}
    (hi : i = .genOutput c n ∨ (c = 1 ∧ i = .genChunk n)) (hready : ReadyToRun s) (hc : 1 ≤ c) (hn : 1 ≤ n)
    (hj : j < c * (n + 1)) (hstanding : Standing (beginRun c n s).cfg j (seqRun j (beginRun c n s)))
    (hadvance : seqAdvance (seqRun j (beginRun c n s)) = some t)
    (ht : FaultedStep (seqRun j (beginRun c n s)) t f op) :
    exec i s = .next t ∧ t.cidx = j / (n + 1) ∧ t.widx = j % (n + 1) ∧ t.out.closed.length = j / (n + 1) ∧
      t.out.openChunk.length = j % (n + 1) ∧ (∀ ch ∈ t.out.closed, chunkWf n ch = true) ∧
      (∀ w ∈ t.out.openChunk, wfData w = true) := by
  obtain ⟨r, hrun⟩ := exists_isRunOf hi s.cfg.lineBreak
  have hend : endRun c n s = t := seqRun_eq_of_faulted hadvance ht.phase hj
  have hinv := runInv_seqRun hready hc n j
  obtain ⟨hcidx, hwidx⟩ := hstanding.counters
  have hwf := hinv.closed_wf
  rw [hstanding.cfg_eq] at hwf
  refine ⟨?_, ht.cidx.trans hcidx, ht.widx.trans hwidx, ?_⟩
  · rw [exec_isRunOf hrun hready.1 hready.2.1 hc hn, hend, finishRun_of_faulted ht.phase]
  · rw [ht.out]
    exact ⟨hinv.closed_count.trans hcidx, hinv.open_count.trans hwidx, hwf, hinv.open_wf⟩

/-- The frame word of chunk `x` comes after `x` whole chunks and `n` words (R13). -/
theorem div_mod_frame_word (x n : Nat) : (x * (n + 1) + n) / (n + 1) = x ∧ (x * (n + 1) + n) % (n + 1) = n :=
  (Nat.div_mod_unique n.succ_pos).mpr ⟨by rw [Nat.mul_comm, Nat.add_comm], n.lt_succ_self⟩

/-- Where the sink refuses the next write, and the triple used by then is legal, the run faults at that write (R169). -/
theorem Accepted.exists_refused {s u : State} {j : Nat} {rest : List Bool} (hu : Accepted s j u)
    (hj : j < s.cfg.c * (s.cfg.n + 1)) (hnext : s.sink.answers.drop j = false :: rest)
    (hlegal : TriplesLegal s.cfg (j + 1)) :
    ∃ t op, seqAdvance u = some t ∧ RefusedWrite u t op ∧ t.sink.answers = rest := by
  have hdecision : sinkDecision u.sink = (false, rest) := sinkDecision_cons (hu.answers.trans hnext)
  obtain ⟨t, hadvance⟩ := hu.exists_seqAdvance hj
  obtain ⟨op, ht⟩ := seqAdvance_refused hadvance (hu.tripleOk hlegal) (by rw [hdecision])
  exact ⟨t, op, hadvance, ht, by rw [ht.answers, hdecision]⟩

/-- At the frame word of chunk `x`, in GENERAL mode, a triple of the host out of range is rejected (R163, R170). -/
theorem Standing.exists_rejected {cfg : RunConfig} {u : State} {x : Nat} {f : FrameTriple} {nm : FieldName}
    (hu : Standing cfg (x * (cfg.n + 1) + cfg.n) u) (hj : x * (cfg.n + 1) + cfg.n < cfg.c * (cfg.n + 1))
    (hmode : cfg.mode = .general) (hf : cfg.frames[x]? = some f) (hfirst : firstFailure (frameChecks f) = some nm) :
    ∃ t, seqAdvance u = some t ∧ RejectedTriple u t nm := by
  obtain ⟨hcidx, hwidx⟩ := hu.counters
  rw [(div_mod_frame_word x cfg.n).1] at hcidx
  rw [(div_mod_frame_word x cfg.n).2] at hwidx
  obtain rfl := hu.cfg_eq
  have htriple : chunkTriple u = f := chunkTriple_of_getElem? (hcidx ▸ hf)
  obtain ⟨t, hadvance⟩ := hu.exists_seqAdvance hj
  exact ⟨t, hadvance, seqAdvance_rejected hadvance hwidx hmode (htriple ▸ hfirst)⟩

/-- Settles O59: the run emits a word a step up to the refused write, or up to the frame word of the bad triple, and the
next step faults. -/
theorem genProceduresStopWhereTheyFault : Obligations.GenProceduresStopWhereTheyFault := by
  intro s c n i hi hready hc hn
  have hbegin := accepted_beginRun hready hc n
  refine ⟨fun j rest hanswers hj htriples => ?_, fun x f nm hmode hx hf hfirst htriples haccepts => ?_⟩
  · have hlegal : TriplesLegal (beginRun c n s).cfg (j + 1) :=
      fun hmode y hy => htriples hmode y (Nat.le_of_lt_succ hy)
    have haccepts : SinkAccepts j (beginRun c n s) := by simp [SinkAccepts, beginRun, hanswers]
    have hu := accepted_seqRun hbegin hj.le haccepts (hlegal.mono j.le_succ)
    obtain ⟨t, op, hadvance, ht, hrest⟩ := hu.exists_refused (rest := rest) hj (by simp [beginRun, hanswers]) hlegal
    obtain ⟨hexec, hcidx, hwidx, hclosed, hopen, hwf, hdata⟩ :=
      exec_of_faultedStep hi hready hc hn hj hu.toStanding hadvance ht.toFaultedStep
    exact ⟨t, hexec, ht.phase, ht.faulted, ⟨op, ht.fr⟩, hcidx, hwidx, hclosed, hopen, hwf, hdata, hrest⟩
  · have hj : x * (n + 1) + n < c * (n + 1) := by
      have hmul := Nat.mul_le_mul_right (n + 1) (Nat.succ_le_of_lt hx)
      rw [Nat.succ_mul] at hmul
      omega
    have hlegal : TriplesLegal (beginRun c n s).cfg (x * (n + 1) + n) :=
      fun _ y hy => htriples y (Nat.lt_of_mul_lt_mul_right (Nat.lt_of_add_lt_add_right hy))
    have hu := accepted_seqRun hbegin hj.le haccepts hlegal
    obtain ⟨t, hadvance, ht⟩ := hu.exists_rejected hj hmode hf hfirst
    have hstop := exec_of_faultedStep hi hready hc hn hj hu.toStanding hadvance ht.toFaultedStep
    rw [(div_mod_frame_word x n).1, (div_mod_frame_word x n).2] at hstop
    obtain ⟨hexec, hcidx, hwidx, hclosed, hopen, hwf, hdata⟩ := hstop
    exact ⟨t, hexec, ht.phase, ht.faulted, ht.fr, hcidx, hwidx, hclosed, hopen, hwf, hdata,
      (congrArg _ ht.sink).trans hu.answers⟩

end Sys2Proof.Machine
end

section
/-! PROOFS. The fault ports after an operation (R12, R181, R191): an outcome delivered to its caller is the one they
show, and so is the outcome of a whole run, whose last step, or whose start, has put it there. -/

namespace Sys2Proof.Machine

/-- The outcome is a fault and the ports carry its codes (R191). -/
def FaultShown (t : State) : Prop :=
  ∃ f : FaultInfo, t.result = .fault f.cause f.field ∧ t.fault = true ∧ t.faultCause = causeCode f.cause ∧
    t.faultField = fieldCode f.field

/-- The outcome is no fault and the fault ports are 0 (R12). -/
def NoFaultShown (t : State) : Prop := ∃ r, (∀ c f, r ≠ .fault c f) ∧ Succeeded r t

/-- The fault ports show the outcome, whichever it is. -/
def OutcomeShown (t : State) : Prop := FaultShown t ∨ NoFaultShown t

/-- The codes of a fault that is shown are its numbers in the tables of R181. -/
theorem FaultShown.exists_numbers {t : State} (h : FaultShown t) :
    ∃ c f, t.result = .fault c f ∧ t.fault = true ∧ (c, t.faultCause) ∈ causeNumbers ∧ FieldPort f t.faultField ∧
      t.faultField.toNat ≤ 18 := by
  obtain ⟨f, hresult, hfault, hcause, hfield⟩ := h
  rw [hcause, hfield]
  exact ⟨f.cause, f.field, hresult, hfault, mem_causeNumbers _, fieldPort_fieldCode _, fieldCode_le _⟩

/-! ### Delivered outcomes -/

theorem outcomeShown_answer {r : Result} (hr : ∀ c f, r ≠ .fault c f) (s : State) : OutcomeShown (answer r s) :=
  .inr ⟨r, hr, deliver_ok_succeeded r s⟩

/-- The value of an operation, put into an outcome by a constructor that is not the fault's, or its fault. -/
theorem outcomeShown_deliver_map {α : Type} (e : Except FaultInfo α) {g : α → Result}
    (hg : ∀ a c f, g a ≠ .fault c f) (s : State) : OutcomeShown (deliver (e.map g) s) := by
  cases e with
  | error f => exact .inl ⟨f, rfl, rfl, rfl, rfl⟩
  | ok a => exact outcomeShown_answer (hg a) s

theorem eq_deliver_of_exec_pack {l : Layout} {vals : FieldValues} {s t : State} (h : exec (.pack l vals) s = .next t) :
    t = deliver ((pack l vals).map .word) s := by
  rw [exec, execPack] at h
  split_ifs at h
  exact (Host.Outcome.next.inj h).symm

theorem eq_answer_of_exec_unpack {l : Layout} {w : Word} {s t : State} (h : exec (.unpack l w) s = .next t) :
    t = answer (.fields (unpack l w)) s := by
  rw [exec, execUnpack] at h
  split_ifs at h
  exact (Host.Outcome.next.inj h).symm

/-! ### Whole runs -/

/-- What the ports show of a run of SEQ that is over: its fault, or none. -/
def EndShown (u : State) : Prop := (u.phase = .faulted ∧ FaultShown u) ∨ (u.phase = .done ∧ NoFaultShown u)

/-- Each step of SEQ leaves a run going on, or over with its outcome on the ports (R165, R170). -/
theorem seqAdvance_endShown {u t : State} (h : seqAdvance u = some t) : t.phase = .run ∨ EndShown t := by
  obtain ⟨hrun, -, ⟨w, h⟩ | ⟨w, h⟩ | ⟨f, op, h⟩⟩ := seqAdvance_cases h
  · rw [h.eq]
    exact .inl hrun
  · rw [h.eq]
    by_cases hlast : u.cidx + 1 = u.cfg.c
    · exact .inr (.inr ⟨if_pos hlast, .token w _, by simp, deliver_ok_succeeded _ _⟩)
    · exact .inl ((if_neg hlast).trans hrun)
  · exact .inr (.inl ⟨h.phase, f, h.result, h.fault, h.faultCause, h.faultField⟩)

theorem endRun_endShown {s : State} (hfr : s.fr = none) {c : Nat} (hc : 1 ≤ c) (n : Nat) :
    EndShown (endRun c n s) := by
  have hends : (endRun c n s).phase = .run ∨ EndShown (endRun c n s) :=
    seqRun_keeps (P := fun u => u.phase = .run ∨ EndShown u) (fun _ _ _ h => seqAdvance_endShown h) _ _ (.inl rfl)
  refine hends.resolve_left ?_
  rcases endRun_done_or_faulted hfr hc n with h | h <;> simp [h]

/-- A run that is over gives its caller `r` where it shows no fault, and its fault otherwise (R161, R162). -/
theorem EndShown.finishRun {u : State} (h : EndShown u) {r : Result} (hr : ∀ c f, r ≠ .fault c f) :
    OutcomeShown (finishRun r u) := by
  rcases h with ⟨hfaulted, h⟩ | ⟨hdone, _, _, _, hports⟩
  · rw [finishRun_of_faulted hfaulted]
    exact .inl h
  · rw [finishRun_of_done hdone]
    exact .inr ⟨r, hr, rfl, hports⟩

theorem seqRun_seqFault_endShown (k : Nat) (f : FaultInfo) (op : OpName) (s : State) :
    EndShown (seqRun k (seqFault f op s)) := by
  rw [seqRun_stopped (by simp)]
  exact .inl ⟨rfl, f, rfl, rfl, rfl, rfl⟩

/-- The start step shows a zero count; otherwise the run begins, and its end shows the outcome (R166, R187). -/
theorem runAll_endShown {s : State} (hfr : s.fr = none) (op : OpName) (c n : Nat) : EndShown (runAll op c n s) := by
  rw [runAll]
  rcases seqStart_cases op { s with cfg := { s.cfg with c := c, n := n } } with ⟨-, h⟩ | ⟨-, -, h⟩ | ⟨hc, -, h⟩ <;>
    rw [h]
  · exact seqRun_seqFault_endShown _ _ _ _
  · exact seqRun_seqFault_endShown _ _ _ _
  · exact endRun_endShown hfr (Nat.one_le_iff_ne_zero.mpr hc) n

theorem outcomeShown_finishRun {s : State} (hready : startable s = true) {r : Result} (hr : ∀ c f, r ≠ .fault c f)
    (op : OpName) (c n : Nat) : OutcomeShown (finishRun r (runAll op c n s)) :=
  (runAll_endShown (startable_iff.mp hready).2 op c n).finishRun hr

/-! ### Every operation -/

theorem exec_outcomeShown {i : Instr} {s t : State} (h : exec i s = .next t) : OutcomeShown t := by
  cases i with
  | encData | encFrame | encFramek | muxSel | decData | renderHex =>
    cases h
    exact outcomeShown_deliver_map _ (by simp) _
  | decFrame | frameSentinel =>
    cases h
    exact outcomeShown_deliver_map _ (by simp [frameResult]) _
  | pack l vals =>
    rw [eq_deliver_of_exec_pack h]
    exact outcomeShown_deliver_map _ (by simp) _
  | unpack l w =>
    rw [eq_answer_of_exec_unpack h]
    exact outcomeShown_answer (by simp) _
  | classify w =>
    cases h
    exact outcomeShown_answer (by simp) _
  | sample =>
    obtain ⟨w, -, -, hexec⟩ := exec_sample s
    cases hexec.symm.trans h
    exact outcomeShown_answer (by simp) _
  | genChunk | genOutput =>
    simp only [exec, execGenChunk, execGenOutput] at h
    split_ifs at h with hready
    cases h
    exact outcomeShown_finishRun hready (by simp) _ _ _

/-- Settles O55: every operation's outcome is shown, and a fault's codes are the numbers of R181. -/
theorem faultPortsCarryTheOutcome : Obligations.FaultPortsCarryTheOutcome := by
  intro i s t hexec
  rcases exec_outcomeShown hexec with hfault | ⟨r, hr, rfl, hports⟩
  · exact .inl hfault.exists_numbers
  · exact .inr ⟨hr, hports⟩

end Sys2Proof.Machine
end

section
/-! PROOFS. The end of a run (R213): from wherever it stands, SEQ's steps bring it to DONE or FAULTED within the words
it has left; and what the host does about a run, the reset event (R211) and the events that prepare one (R217). -/

namespace Sys2Proof.Machine

/-! ### The end of a run -/

/-- In a run the invariants say where it stands: after the words of the closed chunks and of the open one (R22). -/
theorem RunInv.standing {s : State} (hs : RunInv s) (hrun : s.phase = .run) :
    Standing s.cfg (s.cidx * (s.cfg.n + 1) + s.widx) s where
  cfg_eq := rfl
  fr := by simpa [hrun] using hs.faulted_iff
  widx_le := hs.widx_le
  words := rfl
  phase := .inl ⟨hrun, hs.run_inside hrun⟩

/-- A step of SEQ emits the next word of the run, or faults it (R164, R165, R170). -/
theorem Standing.succ_or_faulted {cfg : RunConfig} {j : Nat} {u t : State} (hu : Standing cfg j u)
    (h : seqAdvance u = some t) : Standing cfg (j + 1) t ∨ t.phase = .faulted := by
  have hrun : u.phase = .run := (seqAdvance_cases h).1
  cases seqAdvance_outcome h with
  | emitted w ht => exact .inl (ht.standing hrun hu)
  | closed w ht => exact .inl (ht.standing hrun hu)
  | refused op ht => exact .inr ht.phase
  | rejected n ht => exact .inr ht.phase

/-- As many steps of SEQ as the run has words left end it (R213). -/
theorem Standing.seqRun_ends {cfg : RunConfig} {j m : Nat} {u : State} (hu : Standing cfg j u)
    (hleft : j + m = cfg.c * (cfg.n + 1)) : (seqRun m u).phase = .done ∨ (seqRun m u).phase = .faulted := by
  induction m generalizing j u with
  | zero =>
    obtain rfl : j = cfg.c * (cfg.n + 1) := hleft
    exact .inl hu.done
  | succ m ih =>
    obtain ⟨t, hadvance⟩ := hu.exists_seqAdvance (by omega)
    rw [seqRun_succ_of_some hadvance]
    rcases hu.succ_or_faulted hadvance with ht | hfaulted
    · exact ih ht (by omega)
    · rw [seqRun_stopped (by simp [hfaulted])]
      exact .inr hfaulted

/-- Settles O52: the invariants say after how many words the run stands, and `Standing.seqRun_ends` ends it within the
others. -/
theorem everyRunEnds : Obligations.EveryRunEnds := by
  intro s hinv hrun hinbox
  have hstanding := hinv.standing hrun
  obtain ⟨m, hm⟩ := Nat.exists_eq_add_of_le (hstanding.lt_of_run hrun).le
  obtain ⟨k, hk, heq, hcore⟩ := exists_core_run_eq_seqRun m hinbox
  refine ⟨k, seqRun k s, ?_, hcore, heq ▸ hstanding.seqRun_ends hm.symm⟩
  rw [Nat.sub_mul]
  omega

/-! ### What the host does about a run -/

/-- Settles O46: the reset event is `applyReset` of the state without it. -/
theorem resetEventClearsSeqOnly : Obligations.ResetEventClearsSeqOnly := by
  intro s rest hinbox
  have hstep : step s = .next (applyReset { s with inbox := rest }) := step_of_hostEvent hinbox (by simp)
  exact ⟨_, hstep, rfl, rfl, rfl, rfl, rfl, rfl, rfl, rfl, rfl, rfl⟩

/-- Settles O56: each of the three events looks at the phase alone and writes one part of the state. -/
theorem hostPreparesARun : Obligations.HostPreparesARun := by
  intro s rest cfg script answers
  exact ⟨fun hconfigure => step_of_hostEvent hconfigure (by simp), fun hsource => step_of_hostEvent hsource (by simp),
    fun hsink => step_of_hostEvent hsink (by simp)⟩

end Sys2Proof.Machine
end
